-- ==== Sys2Proof/Word.lean ====
section
/-! DEFINITION. The word types of the core (spec/00_scope.md R7): unsigned 8-bit values and the 3-bit mode code.
Counts, indices and the capacity are exact naturals (R7), so they are `Nat` and not bit vectors. -/
namespace Sys2Proof

/-- A channel value, a message byte, a token byte or a command word: an unsigned 8-bit integer, bit 0 the
least significant (R7, R10). -/
abbrev Byte := BitVec 8

/-- A mode code: the 3-bit channel mask of R43, bit 0 for R, bit 1 for G, bit 2 for B. -/
abbrev ModeCode := BitVec 3

end Sys2Proof
end

