-- ==== Sys2Proof/Syntax.lean ====
section
/-! DEFINITION. The syntax of the core: channels, pixels, cell addresses, the seven channel modes, commands and
the four instructions of spec/opcode_table.json (spec/10_state.md R10 to R17, spec/30_encoding.md R40 to R51, R126). -/
namespace Sys2Proof

/-- A channel of a pixel (R11): red, green, blue, in that order. -/
inductive Channel
  /-- Red, channel number 0. -/
  | r
  /-- Green, channel number 1. -/
  | g
  /-- Blue, channel number 2. -/
  | b
  deriving DecidableEq, Repr

/-- A pixel: "exactly three channel values" and nothing else (R11, R12: no alpha). -/
structure Pixel where
  /-- The red channel value. -/
  r : Byte
  /-- The green channel value. -/
  g : Byte
  /-- The blue channel value. -/
  b : Byte
  deriving DecidableEq, Repr

/-- A cell address `(p, c)` of the one address space (R26). -/
structure CellAddr where
  /-- The pixel index `p`. -/
  pixel : Nat
  /-- The channel `c`. -/
  channel : Channel
  deriving DecidableEq, Repr

/-- A channel mode: "one of 7 variants"; "There is no eighth mode" (R15). -/
inductive Mode
  /-- Red, green and blue, with the pad: code `111`. -/
  | rgb
  /-- Red and green: code `011`. -/
  | rg
  /-- Red and blue: code `101`. -/
  | rb
  /-- Green and blue: code `110`. -/
  | gb
  /-- Red alone: code `001`. -/
  | r
  /-- Green alone: code `010`. -/
  | g
  /-- Blue alone: code `100`. -/
  | b
  deriving DecidableEq, Repr

/-- A mode descriptor: "ordered channel list + pad flag" (R16). -/
structure Descriptor where
  /-- `chans`: the channels the mode uses, R before G before B. -/
  chans : List Channel
  /-- `pad`: whether a 1-bit pad follows each encoded byte. -/
  pad : Bool
  deriving DecidableEq, Repr

/-- A command on the interface: the pair (command word, payload) of R40. The payload is a finite byte sequence of any
length (R46); the transaction carries its length (R50). -/
structure Command where
  /-- The 8-bit command word (R41). -/
  word : Byte
  /-- The payload bytes (R46). -/
  payload : List Byte
  deriving DecidableEq, Repr

/-- The instructions: one constructor per row of spec/opcode_table.json; "The four commands ... are the whole
command set" (R42, R126). Every value of the operands is admitted by the encoding: a mode code is any 3-bit value (`000` is
legal and raises, R44), a token or a message any byte sequence (R46). -/
inductive Instr
  /-- SELECT_MODE with its flag token (R53). -/
  | selectMode (token : List Byte)
  /-- NORMALIZE, which takes no operand (R63). -/
  | normalize
  /-- ENCODE with its mode code and its message (R67). -/
  | encode (mode : ModeCode) (message : List Byte)
  /-- DECODE with its mode code (R81). -/
  | decode (mode : ModeCode)
  deriving DecidableEq, Repr

/-- A line of the assembler syntax of R51. A mode stands as the characters of its name; a string literal stands
as the bytes it denotes. -/
inductive AsmLine
  /-- `SELECT_MODE "<token>"`. -/
  | selectMode (token : List Byte)
  /-- `NORMALIZE`. -/
  | normalize
  /-- `ENCODE <mode>, "<message>"`. -/
  | encode (modeName : List Char) (message : List Byte)
  /-- `DECODE <mode>`. -/
  | decode (modeName : List Char)
  deriving DecidableEq, Repr

end Sys2Proof
end

