-- ==== Sys2Proof/WellFormed.lean ====
section
/-! DEFINITION. Which commands are well formed: the word's fields (spec/30_encoding.md R41) and the two checks of R45. An
`Instr` needs no check of its own: the types of its operands admit exactly what the encoding admits (R44, R46). -/
namespace Sys2Proof

/-- The `op` field, bits `[1:0]` of the command word (R41). -/
def Command.op (c : Command) : BitVec 2 := c.word.extractLsb' 0 2

/-- The `mode` field, bits `[4:2]` of the command word (R41). -/
def Command.mode (c : Command) : ModeCode := c.word.extractLsb' 2 3

/-- The `rsv` field, bits `[7:5]` of the command word (R41). -/
def Command.rsv (c : Command) : BitVec 3 := c.word.extractLsb' 5 3

/-- The reserved bits are `000` (R41, R45). -/
def Command.rsvClear (c : Command) : Bool := c.rsv == 0#3

/-- The mode field is `000` where the operation is SELECT_MODE or NORMALIZE (R41, R45). -/
def Command.modeClear (c : Command) : Bool :=
  !(c.op == 0b00#2 || c.op == 0b01#2) || c.mode == 0#3

/-- A command is legal when its word passes both checks of R45; the payload is never checked (R46). -/
def Command.legal (c : Command) : Bool := c.rsvClear && c.modeClear

end Sys2Proof
end

