-- ==== Sys2Proof/Decode.lean ====
section
/-! DEFINITION. The decoder, total over all 256 command words and any payload (spec/30_encoding.md R49), the encoder written
from the same table, the mode codes of R44 and the assembler syntax of R51 and R52. -/
namespace Sys2Proof

/-- Why a command word is illegal (R45). The core reports every one of them as IllegalCommand (R102). -/
inductive DecodeError
  /-- The reserved bits `[7:5]` are not `000`. -/
  | reservedBits
  /-- The word is SELECT_MODE's with a mode field that is not `000`. -/
  | modeOnSelectMode
  /-- The word is NORMALIZE's with a mode field that is not `000`. -/
  | modeOnNormalize
  deriving DecidableEq, Repr

/-- `Decode(w)` of R49, with the payload each operation takes (R46): NORMALIZE and DECODE ignore theirs. -/
def decodeCommand (c : Command) : Except DecodeError Instr :=
  if c.word.extractLsb' 5 3 ≠ 0#3 then .error .reservedBits
  else if c.word.extractLsb' 0 2 = 0b00#2 then
    if c.word.extractLsb' 2 3 = 0#3 then .ok (.selectMode c.payload) else .error .modeOnSelectMode
  else if c.word.extractLsb' 0 2 = 0b01#2 then
    if c.word.extractLsb' 2 3 = 0#3 then .ok .normalize else .error .modeOnNormalize
  else if c.word.extractLsb' 0 2 = 0b10#2 then
    .ok (.encode (c.word.extractLsb' 2 3) c.payload)
  else .ok (.decode (c.word.extractLsb' 2 3))

/-- The command word with the given `mode` and `op` fields and `rsv = 000` (R41). -/
def commandWord (mode : ModeCode) (op : BitVec 2) : Byte := 0#3 ++ mode ++ op

/-- The command of an instruction: the word of the opcode map (R49) and the payload of R46. -/
def encodeInstr : Instr → Command
  | .selectMode token => { word := commandWord 0#3 0b00#2, payload := token }
  | .normalize => { word := commandWord 0#3 0b01#2, payload := [] }
  | .encode mode message => { word := commandWord mode 0b10#2, payload := message }
  | .decode mode => { word := commandWord mode 0b11#2, payload := [] }

/-- The mode a mode code names (R44); `000` names none. -/
def Mode.ofCode (code : ModeCode) : Option Mode :=
  if code = 0b001#3 then some .r
  else if code = 0b010#3 then some .g
  else if code = 0b011#3 then some .rg
  else if code = 0b100#3 then some .b
  else if code = 0b101#3 then some .rb
  else if code = 0b110#3 then some .gb
  else if code = 0b111#3 then some .rgb
  else none

/-- The mode code of a mode (R44). -/
def Mode.code : Mode → ModeCode
  | .r => 0b001#3
  | .g => 0b010#3
  | .rg => 0b011#3
  | .b => 0b100#3
  | .rb => 0b101#3
  | .gb => 0b110#3
  | .rgb => 0b111#3

/-- The code a mode name of the assembler syntax stands for: names are case-sensitive, and `NONE` is `000` (R51, R52). -/
def modeCodeOfName (name : List Char) : Option ModeCode :=
  if name = ['R', 'G', 'B'] then some 0b111#3
  else if name = ['R', 'G'] then some 0b011#3
  else if name = ['R', 'B'] then some 0b101#3
  else if name = ['G', 'B'] then some 0b110#3
  else if name = ['R'] then some 0b001#3
  else if name = ['G'] then some 0b010#3
  else if name = ['B'] then some 0b100#3
  else if name = ['N', 'O', 'N', 'E'] then some 0b000#3
  else none

/-- The instruction an assembler line stands for (R51); none where its mode name is not one of the eight. -/
def assemble : AsmLine → Option Instr
  | .selectMode token => some (.selectMode token)
  | .normalize => some .normalize
  | .encode modeName message => (modeCodeOfName modeName).map (fun m => .encode m message)
  | .decode modeName => (modeCodeOfName modeName).map (fun m => .decode m)

/-- The instruction the decoder reads from a table word: the table gives every row one 8-bit word (R41), and the payload
is empty. No other width is a command word. -/
def decodeTableWord (nbits w : Nat) : Option Instr :=
  if nbits = 8 then
    match decodeCommand { word := BitVec.ofNat 8 w, payload := [] } with
    | .ok i => some i
    | .error _ => none
  else none

end Sys2Proof
end

