-- ==== Sys2Proof/Config.lean ====
section
/-! DEFINITION. The parameters the spec leaves open (spec/00_scope.md R6; spec/92_eei_decisions.md D11, D12, D17). They are plain data that
the state carries, no step changes them, and a statement over every state is a statement for every value of them. -/
namespace Sys2Proof

/-- `ERR_ORDER` (R72): which ENCODE error is reported when a message both has a bad byte and exceeds the capacity. -/
inductive ErrOrder
  /-- `BYTE_FIRST`: UndefinedByteEncoding is reported (the spec's default). -/
  | byteFirst
  /-- `CAPACITY_FIRST`: EncodingCapacityExceeded is reported. -/
  | capacityFirst
  deriving DecidableEq, Repr

/-- `CONSUMED_COUNT` (R78): what ENCODE's `pixels_consumed` counts. -/
inductive ConsumedCount
  /-- `SPANNED`: the pixels the cursor passed over (the spec's default). -/
  | spanned
  /-- `MODIFIED`: the pixels in which at least one 1 bit was written. -/
  | modified
  deriving DecidableEq, Repr

/-- The implementation's parameters (R6). `N` itself is no member: the host sets it with each buffer (R13). -/
structure Config where
  /-- `ERR_ORDER` (R6, R72). -/
  errOrder : ErrOrder
  /-- `CONSUMED_COUNT` (R6, R78). -/
  consumedCount : ConsumedCount
  /-- `N_MAX` (R6, D17): the largest `N` the implementation accepts. -/
  nMax : Nat
  deriving DecidableEq, Repr

/-- The parameters at reset: the spec's defaults for `ERR_ORDER` and `CONSUMED_COUNT` (R6).
DESIGN CHOICE (log entry 2): `N_MAX` is open in the spec; 2^32 stands here, and no statement rests on it. -/
def Config.default : Config :=
  { errOrder := .byteFirst, consumedCount := .spanned, nMax := 4294967296 }

end Sys2Proof
end

