-- ==== Sys2Proof/Machine/State.lean ====
section
/-! DEFINITION. The state of the machine as plain data: the pixel buffer and its size (spec/10_state.md R13, R24), the parameters
(R6), the host's coming moves (spec/70_reset_and_hazards.md R124, R125) and the responses it got back (R124). The core has no
registers, flags, program counter or latched status (R20), and ENCODE's cursor and DECODE's bit buffer exist only inside one
indivisible command (R21, R22, R33), so none of them is a field. -/
namespace Sys2Proof.Machine

/-- The contents of the pixel buffer: (cell key, value) pairs in rising key order, no value 0 listed.
DESIGN CHOICE (log entry 3): the key of cell `(p, c)` is `3p + c`, a name inside the model and no host address (R26). -/
abbrev Memory := List Host.Cell

/-- The errors of the core (R96). They are no stops: the command that raises one returns it as its status (R97). -/
inductive Error
  /-- Status 1 (R99). -/
  | invalidChannelFlags
  /-- Status 2 (R100). -/
  | encodingCapacityExceeded
  /-- Status 3 (R101). -/
  | undefinedByteEncoding
  /-- Status 4 (R102). -/
  | illegalCommand
  deriving DecidableEq, Repr

/-- The status a command returns (R47). -/
inductive Status
  /-- Status 0: the command completed. -/
  | ok
  /-- The command raised an error (R97). -/
  | error (e : Error)
  deriving DecidableEq, Repr

/-- The result a command returns with status OK (R48). NORMALIZE returns nothing, so it has no constructor. -/
inductive Result
  /-- SELECT_MODE's 3-bit mode code. -/
  | mode (code : ModeCode)
  /-- ENCODE's `pixels_consumed`, a natural number. -/
  | pixels (count : Nat)
  /-- DECODE's decoded message. -/
  | message (bytes : List Byte)
  deriving DecidableEq, Repr

/-- What a command returns to the host: the pair (status, result) of R40 and R48. -/
structure Response where
  /-- The status (R47). -/
  status : Status
  /-- The result (R48), if the command returns one. -/
  result : Option Result
  deriving DecidableEq, Repr

/-- A move of the host, the agent that issues commands and owns the buffer between them (R110, R125). -/
inductive HostMove
  /-- Issue a command and wait for its response (R40, R117). -/
  | command (c : Command)
  /-- Hand over a different buffer, given pixel by pixel from pixel 0 (R13, R125). -/
  | handOver (pixels : List Pixel)
  /-- Write one cell of the buffer between commands (R125). -/
  | write (a : CellAddr) (v : Byte)
  /-- Reset the core between commands (R111, R113). -/
  | reset
  deriving DecidableEq, Repr

/-- The reasons the machine stops with a fault. -/
inductive Fault
  /-- An access to a cell outside the buffer, which the spec says does not exist (R26). Raised by the cell accesses of
Machine/Ops.lean and by a host write to such a cell. SAFE: the model stops; no command raises it, since no command forms
such an address (R35). -/
  | noSuchCell (a : CellAddr)
  deriving DecidableEq, Repr

/-- The reasons the machine refuses a step. -/
inductive Refusal
  /-- An instruction whose meaning is not modelled. Raised by no arm of `exec`: every instruction has its meaning. SAFE:
the model stops. -/
  | notModelled (mnemonic : String)
  /-- The host hands over a buffer of `n` pixels, more than the `N_MAX` the implementation accepts (R6). Raised by the
host move `handOver` alone, never by a command. SAFE: the model stops. -/
  | bufferAboveNMax (n : Nat)
  deriving DecidableEq, Repr

/-- The machine's state. -/
structure State where
  /-- The implementation's parameters (R6): the model's own field, changed by no step. -/
  cfg : Config
  /-- `N`, the number of pixels of the buffer (R13). -/
  n : Nat
  /-- `PB`, the contents of the pixel buffer (R13, R25). -/
  mem : Memory
  /-- The host's coming moves, the next one first: the model's own field for the command interface's input (R40, R124). -/
  host : List HostMove
  /-- The responses the host got back, the oldest first: the model's own field for the observation of a run (R124).
No command reads it, and the core latches nothing (R20, R48). -/
  returned : List Response
  deriving DecidableEq, Repr

/-- The machine right after reset (R24, R111): the core is idle, no command is issued, nothing has been returned.
DESIGN CHOICE (log entry 1): the spec leaves the buffer and its `N` to the host (R24, R112); the model's reset state has the
buffer of 0 pixels, which has no cell, so that no cell's contents are chosen. -/
def State.reset : State :=
  { cfg := Config.default, n := 0, mem := [], host := [], returned := [] }

end Sys2Proof.Machine
end

