-- ==== Sys2Proof/Machine/Operands.lean ====
section
/-! DEFINITION. The operand forms: mode descriptors and the channel multiplexer (spec/10_state.md R17, spec/40_mode_select.md R59 to R62), capacity
(R19), token folding and mapping (R54, R56), the cell lists each command walks, and the bytes a bit stream holds (spec/43_decode.md
R85 to R87). All of it is pure. -/
namespace Sys2Proof

/-- The channel number: 0, 1, 2 for R, G, B (R11). -/
def Channel.num : Channel → Nat
  | .r => 0
  | .g => 1
  | .b => 2

/-- The three channels in channel order (R11, R60). -/
def Channel.all : List Channel := [.r, .g, .b]

/-- The value of a pixel's channel (R11). -/
def Pixel.channel (px : Pixel) : Channel → Byte
  | .r => px.r
  | .g => px.g
  | .b => px.b

/-- The key of a cell in the model's memory: one key for each cell (log entry 3). -/
def CellAddr.key (a : CellAddr) : Nat := 3 * a.pixel + a.channel.num

/-- The descriptor of a mode: the columns `chans` and `pad` of `Desc(m)` (R17). -/
def Mode.desc : Mode → Descriptor
  | .rgb => { chans := [.r, .g, .b], pad := true }
  | .rg => { chans := [.r, .g], pad := false }
  | .rb => { chans := [.r, .b], pad := false }
  | .gb => { chans := [.g, .b], pad := false }
  | .r => { chans := [.r], pad := false }
  | .g => { chans := [.g], pad := false }
  | .b => { chans := [.b], pad := false }

/-- `chans`: the ordered channel list of the mode (R17). -/
def Mode.chans (m : Mode) : List Channel := m.desc.chans

/-- `k`: how many channels the mode uses (R17). -/
def Mode.k (m : Mode) : Nat := m.desc.chans.length

/-- `G`: the slots of one byte group, 9 with the pad and 8 otherwise (R17). -/
def Mode.groupSize (m : Mode) : Nat := if m.desc.pad then 9 else 8

/-- `ppb`: the pixels of one byte group, `G div k` (R17). -/
def Mode.ppb (m : Mode) : Nat := m.groupSize / m.k

/-- `Capacity(N, m)`: the message bytes a buffer of `N` pixels can hold, the terminator's room counted in (R19). -/
def capacity (n : Nat) (m : Mode) : Nat := (n * m.k) / m.groupSize

/-- The slot map `Slot(m, i, j)` (R61). The default of the list access is never taken, since `j mod k < k`. -/
def slot (m : Mode) (i j : Nat) : CellAddr :=
  { pixel := m.ppb * i + j / m.k, channel := m.chans.getD (j % m.k) .r }

/-- `Fold(x)`: an upper-case ASCII letter becomes its lower-case letter; every other byte stays (R54). -/
def foldByte (x : Byte) : Byte := if 0x41#8 ≤ x ∧ x ≤ 0x5A#8 then x + 0x20#8 else x

/-- The folded token `F` of SELECT_MODE (R53). -/
def foldToken (token : List Byte) : List Byte := token.map foldByte

/-- The mask bit of a folded letter: r, g, b give bits 0, 1, 2 (R56). -/
def letterMask (x : Byte) : ModeCode :=
  if x = 0x72#8 then 0b001#3
  else if x = 0x67#8 then 0b010#3
  else if x = 0x62#8 then 0b100#3
  else 0b000#3

/-- `TokenMask(F)`: the OR of the letters' mask bits (R56). -/
def tokenMask : List Byte → ModeCode
  | [] => 0b000#3
  | x :: rest => letterMask x ||| tokenMask rest

/-- NORMALIZE's value of a cell: `v & 0xFE` (R63). -/
def clearLsb (v : Byte) : Byte := v &&& 0xFE#8

/-- ENCODE's value of a cell that carries a 1 bit: `v | 0x01` (R75). -/
def setLsb (v : Byte) : Byte := v ||| 0x01#8

/-- Bit 0 of a channel value, the only bit DECODE uses of it (R32, R81). -/
def lsb (v : Byte) : Bool := v.getLsbD 0

/-- The cells NORMALIZE walks: every channel of every pixel `0 .. n-1`, in order (R63). -/
def bufferCells (n : Nat) : List CellAddr :=
  (List.range n).flatMap (fun p => Channel.all.map (fun c => { pixel := p, channel := c }))

/-- The cells of byte group `i` that ENCODE sets to 1: slot `j` for each 1 bit `M[i][7 - j]` of the byte, `j` from
0 to 7 (R67, R73). The pad, slot 8, is never among them (R62). -/
def groupOnes (m : Mode) (i : Nat) (byte : Byte) : List CellAddr :=
  ((List.range 8).filter (fun j => byte.getLsbD (7 - j))).map (fun j => slot m i j)

/-- The cells of byte groups `i`, `i + 1`, ... that ENCODE sets to 1, in message order (R74). -/
def onesFrom (m : Mode) : Nat → List Byte → List CellAddr
  | _, [] => []
  | i, byte :: rest => groupOnes m i byte ++ onesFrom m (i + 1) rest

/-- The cells ENCODE of a message sets to 1, in the order of its loops; its cursor starts at `(0, 0)` (R21, R67). -/
def messageOnes (m : Mode) (message : List Byte) : List CellAddr := onesFrom m 0 message

/-- `Consumed(m, M)` (R78). -/
def consumed (count : ConsumedCount) (m : Mode) (message : List Byte) : Nat :=
  match count with
  | .spanned => message.length * m.ppb
  | .modified => ((messageOnes m message).map CellAddr.pixel).dedup.length

/-- The cells of DECODE's flat bit stream: the mode's channels of pixel 0, of pixel 1, ... of pixel `n-1` (R83). -/
def streamCells (m : Mode) (n : Nat) : List CellAddr :=
  (List.range n).flatMap (fun p => m.chans.map (fun c => { pixel := p, channel := c }))

/-- The byte whose bit 7 is entry `start` of the stream and whose bit 0 is entry `start + 7` (R81, R86). The default
of the list access is never taken: only whole groups are formed. -/
def byteAt (bits : List Bool) (start : Nat) : Byte :=
  (List.range 8).foldl
    (fun acc e => acc + ((if bits.getD (start + e) false then 1#8 else 0#8) <<< (7 - e))) 0#8

/-- The bytes of the whole groups, in order: `len(bits) div G` of them (R85, R86, R88). -/
def groupBytes (m : Mode) (bits : List Bool) : List Byte :=
  (List.range (bits.length / m.groupSize)).map (fun g => byteAt bits (m.groupSize * g))

/-- DECODE's output: the group bytes before the first zero byte (R87). -/
def outputBytes (m : Mode) (bits : List Bool) : List Byte :=
  (groupBytes m bits).takeWhile (fun byte => byte != 0#8)

end Sys2Proof
end

