-- ==== Sys2Proof/Machine/Flags.lean ====
section
/-! DEFINITION. The core has no condition flags (spec/10_state.md R20). What a command reports instead is its status: the conditions that
decide it, the order of the checks (spec/60_exceptions.md R103), the numeric codes (spec/30_encoding.md R47), and DECODE's sentinel test (R84). -/
namespace Sys2Proof.Machine

/-- `ValidToken(F)` of a folded token: 1 to 3 bytes, each one of r, g, b, no two alike (R55). -/
def validToken (folded : List Byte) : Bool :=
  decide (1 ≤ folded.length) && decide (folded.length ≤ 3)
    && folded.all (fun x => x == 0x72#8 || x == 0x67#8 || x == 0x62#8)
    && decide folded.Nodup

/-- A message byte ENCODE rejects: `0x00` or greater than `0x7F` (R71). -/
def badByte (x : Byte) : Bool := x == 0x00#8 || decide (0x7F#8 < x)

/-- `badByte` of R67: some byte of the message is rejected. -/
def badMessage (message : List Byte) : Bool := message.any badByte

/-- `overCap` of R67: `L + 1 > Capacity(N, m)`, exact naturals (R70). -/
def overCapacity (n : Nat) (m : Mode) (message : List Byte) : Bool :=
  decide (message.length + 1 > capacity n m)

/-- The error ENCODE raises from its two conditions, in the order `ERR_ORDER` gives (R67, R72, R103). -/
def encodeError (order : ErrOrder) (bad tooLong : Bool) : Option Error :=
  match order with
  | .byteFirst =>
    if bad then some .undefinedByteEncoding
    else if tooLong then some .encodingCapacityExceeded
    else none
  | .capacityFirst =>
    if tooLong then some .encodingCapacityExceeded
    else if bad then some .undefinedByteEncoding
    else none

/-- The sentinel test: the stream holds at least 8 entries and the last 8 are all zero (R84). -/
def sentinel (bits : List Bool) : Bool :=
  decide (8 ≤ bits.length) && (bits.drop (bits.length - 8)).all (fun b => !b)

/-- The 3-bit status code; 5, 6 and 7 are never returned (R47). -/
def Status.code : Status → BitVec 3
  | .ok => 0#3
  | .error .invalidChannelFlags => 1#3
  | .error .encodingCapacityExceeded => 2#3
  | .error .undefinedByteEncoding => 3#3
  | .error .illegalCommand => 4#3

end Sys2Proof.Machine
end

