-- ==== Sys2Proof/Machine/Ops.lean ====
section
/-! DEFINITION. The named operations over the state: the cell accesses (spec/20_memory.md R26, R27), the read-modify-write walk of NORMALIZE
and ENCODE (R32), DECODE's scan (R83, R84), completing a command and raising an error (spec/60_exceptions.md R97), and what the host does
between commands (spec/70_reset_and_hazards.md R111, R125). There is no return from an error to model beside raising one: nothing is saved and
nothing is restored (R106, R107). -/
namespace Sys2Proof.Machine

/-- What a cell that is not listed reads as. A buffer of `n` pixels with the listed cells is one definite buffer, every
other cell of it being 0 (log entry 3). -/
def blankByte : Byte := 0#8

/-- The value the memory holds under a key. -/
def Memory.read : Memory → Nat → Byte
  | [], _ => blankByte
  | (j, w) :: rest, k => if j = k then w else Memory.read rest k

/-- The memory with a value under a key, in the canonical form: a blank value is not listed. -/
def Memory.write : Memory → Nat → Byte → Memory
  | [], k, v => if v = blankByte then [] else [(k, v)]
  | (j, w) :: rest, k, v =>
    if j < k then (j, w) :: Memory.write rest k v
    else if j = k then (if v = blankByte then rest else (k, v) :: rest)
    else (if v = blankByte then (j, w) :: rest else (k, v) :: (j, w) :: rest)

/-- The canonical form: keys strictly rising, no blank value listed. -/
abbrev Memory.wf (mem : Memory) : Prop :=
  mem.Pairwise (fun x y => x.1 < y.1) ∧ ∀ x ∈ mem, x.2 ≠ blankByte

/-- `PB[p][c]`, the value of a cell (R13). -/
def State.cell (s : State) (a : CellAddr) : Byte := Memory.read s.mem a.key

/-- `MemRead((p, c), 1)` (R8, R27). A cell outside the buffer does not exist (R26). -/
def State.memRead (s : State) (a : CellAddr) : Except Fault Byte :=
  if a.pixel < s.n then .ok (s.cell a) else .error (.noSuchCell a)

/-- `MemWrite((p, c), 1, v)` (R8, R27). A cell outside the buffer does not exist (R26). -/
def State.memWrite (s : State) (a : CellAddr) (v : Byte) : Except Fault State :=
  if a.pixel < s.n then .ok { s with mem := Memory.write s.mem a.key v } else .error (.noSuchCell a)

/-- One read-modify-write of a cell (R32). -/
def State.modifyCell (f : Byte → Byte) (s : State) (a : CellAddr) : Except Fault State :=
  match s.memRead a with
  | .error e => .error e
  | .ok v => s.memWrite a (f v)

/-- The read-modify-write of each cell of a list, in order (R63, R67). -/
def State.modifyCells (f : Byte → Byte) : List CellAddr → State → Except Fault State
  | [], s => .ok s
  | a :: rest, s =>
    match s.modifyCell f a with
    | .error e => .error e
    | .ok s' => State.modifyCells f rest s'

/-- DECODE's scan over the cells still to be read, `bits` being the bit buffer so far: append bit 0 of the next cell, stop
when the sentinel test fires or no cell is left (R81, R83, R84). -/
def State.scan (s : State) : List CellAddr → List Bool → Except Fault (List Bool)
  | [], bits => .ok bits
  | a :: rest, bits =>
    match s.memRead a with
    | .error e => .error e
    | .ok v =>
      if sentinel (bits ++ [lsb v]) then .ok (bits ++ [lsb v])
      else State.scan s rest (bits ++ [lsb v])

/-- The response of a command reaches the host (R40, R48). -/
def State.respond (s : State) (r : Response) : State :=
  { s with returned := s.returned ++ [r] }

/-- `return (OK, r)`: the command ends with status OK (R8). -/
def complete (result : Option Result) (s : State) : Host.Outcome State Fault Refusal :=
  .next (s.respond { status := .ok, result := result })

/-- `raise E()`: taking an error. The command ends at once with status `E` and no result, nothing is saved, no mode
changes and control goes nowhere; the core is ready for its next command (R8, R97, R106). -/
def raise (e : Error) (s : State) : Host.Outcome State Fault Refusal :=
  .next (s.respond { status := .error e, result := none })

/-- The effect of an illegal command word: IllegalCommand, nothing read and nothing written (R45, R102). -/
def illegalCommand (s : State) : Host.Outcome State Fault Refusal := raise .illegalCommand s

/-- The memory with the pixels of a buffer written from pixel `p` on. -/
def Memory.writePixels : Nat → List Pixel → Memory → Memory
  | _, [], mem => mem
  | p, px :: rest, mem =>
    Memory.writePixels (p + 1) rest
      (Memory.write (Memory.write (Memory.write mem
        (CellAddr.key { pixel := p, channel := .r }) px.r)
        (CellAddr.key { pixel := p, channel := .g }) px.g)
        (CellAddr.key { pixel := p, channel := .b }) px.b)

/-- The host hands over a different buffer: `N` and every cell are the new buffer's (R13, R125). More than `N_MAX` pixels
are not accepted (R6). -/
def handOver (pixels : List Pixel) (s : State) : Host.Outcome State Fault Refusal :=
  if pixels.length ≤ s.cfg.nMax then
    .next { s with n := pixels.length, mem := Memory.writePixels 0 pixels [] }
  else .refused (.bufferAboveNMax pixels.length)

/-- The host writes a cell of the buffer between commands (R14, R125). -/
def hostWrite (a : CellAddr) (v : Byte) (s : State) : Host.Outcome State Fault Refusal :=
  match s.memWrite a v with
  | .error e => .fault e
  | .ok s' => .next s'

/-- Reset between commands: there is nothing to initialise, and the pixel buffer is not written (R111, R112). -/
def takeReset (s : State) : Host.Outcome State Fault Refusal := .next s

end Sys2Proof.Machine
end

