-- ==== Sys2Proof/Machine/DecodeMessage.lean ====
section
/-! DEFINITION. DECODE (spec/43_decode.md R81 to R95). -/
namespace Sys2Proof.Machine

/-- DECODE: scan the stream until the sentinel or the end of the buffer, then regroup it into bytes (R81). It writes no
cell (R89). -/
def execDecode (code : ModeCode) (s : State) : Host.Outcome State Fault Refusal :=
  match Mode.ofCode code with
  | none => raise .invalidChannelFlags s
  | some m =>
    match s.scan (streamCells m s.n) [] with
    | .error e => .fault e
    | .ok bits => complete (some (.message (outputBytes m bits))) s

end Sys2Proof.Machine
end

