-- ==== Sys2Proof/Machine/EncodeMessage.lean ====
section
/-! DEFINITION. ENCODE (spec/42_encode.md R67 to R80). -/
namespace Sys2Proof.Machine

/-- ENCODE: every check before the first write (R69), then the 1 bits of the message go to their slots (R67). -/
def execEncode (code : ModeCode) (message : List Byte) (s : State) : Host.Outcome State Fault Refusal :=
  match Mode.ofCode code with
  | none => raise .invalidChannelFlags s
  | some m =>
    match encodeError s.cfg.errOrder (badMessage message) (overCapacity s.n m message) with
    | some e => raise e s
    | none =>
      match s.modifyCells setLsb (messageOnes m message) with
      | .error e => .fault e
      | .ok s' => complete (some (.pixels (consumed s.cfg.consumedCount m message))) s'

end Sys2Proof.Machine
end

