-- ==== Sys2Proof/Machine/Normalize.lean ====
section
/-! DEFINITION. NORMALIZE (spec/41_normalize.md R63 to R66). -/
namespace Sys2Proof.Machine

/-- NORMALIZE: clear bit 0 of every channel of every pixel, whatever the mode (R63, R64). -/
def execNormalize (s : State) : Host.Outcome State Fault Refusal :=
  match s.modifyCells clearLsb (bufferCells s.n) with
  | .error e => .fault e
  | .ok s' => complete none s'

end Sys2Proof.Machine
end

