-- ==== Sys2Proof/Machine/SelectMode.lean ====
section
/-! DEFINITION. SELECT_MODE (spec/40_mode_select.md R53 to R58). -/
namespace Sys2Proof.Machine

/-- SELECT_MODE: fold the token, check it, return its mode code (R53). It reads no cell and writes none (R57). -/
def execSelectMode (token : List Byte) (s : State) : Host.Outcome State Fault Refusal :=
  if validToken (foldToken token) then complete (some (.mode (tokenMask (foldToken token)))) s
  else raise .invalidChannelFlags s

end Sys2Proof.Machine
end

