-- ==== Sys2Proof/Machine/Dispatch.lean ====
section
/-! DEFINITION. One arm per instruction of spec/opcode_table.json (R42, R126): each is one call of its meaning. -/
namespace Sys2Proof.Machine

def exec (i : Instr) (s : State) : Host.Outcome State Fault Refusal :=
  match i with
  | .selectMode token => Sys2Proof.Machine.execSelectMode token s
  | .normalize => Sys2Proof.Machine.execNormalize s
  | .encode mode message => Sys2Proof.Machine.execEncode mode message s
  | .decode mode => Sys2Proof.Machine.execDecode mode s

end Sys2Proof.Machine
end

