-- ==== Sys2Proof/Machine/Step.lean ====
section
/-! DEFINITION. One step of the machine: the host's next move is taken, and a command among them is decoded and performed as one
indivisible operation (spec/00_scope.md R3, spec/20_memory.md R33, R36, spec/70_reset_and_hazards.md R124, R125). -/
namespace Sys2Proof.Machine

/-- One step. With no move left the core stays idle (R24, R111). The core fetches nothing from memory (R38). -/
def step (s : State) : Host.Outcome State Fault Refusal :=
  match s.host with
  | [] => .next s
  | .command c :: rest =>
    match decodeCommand c with
    | .ok i => exec i { s with host := rest }
    | .error _ => illegalCommand { s with host := rest }
  | .handOver pixels :: rest => handOver pixels { s with host := rest }
  | .write a v :: rest => hostWrite a v { s with host := rest }
  | .reset :: rest => takeReset { s with host := rest }

/-- `s` with the table word `w` issued as the host's next command: there is no program in memory to fetch (R38), so the word
stands where the step takes its next command from, with the empty payload (log entry 4). -/
def State.withFetchWord (s : State) (_nbits w : Nat) : State :=
  { s with host := .command { word := BitVec.ofNat 8 w, payload := [] } :: s.host }

end Sys2Proof.Machine
end

