-- ==== Sys2Proof/Safety.lean ====
section
/-! DEFINITION. The terms the claims use: the invariant of the state, the baseline, the messages ENCODE accepts, the flat bit stream,
zero windows and premature sentinels (spec/43_decode.md R83, R84, R92), and the letters of a token (spec/40_mode_select.md R55). -/
namespace Sys2Proof.Machine

/-- The invariant every step keeps: the memory is in canonical form, it lists only cells of the buffer (R26, R35), and the
buffer is one the implementation accepts (R6: `N ≤ N_MAX`). -/
abbrev State.Inv (s : State) : Prop :=
  Memory.wf s.mem ∧ (∀ x ∈ s.mem, x.1 < 3 * s.n) ∧ s.n ≤ s.cfg.nMax

/-- The buffer is at the baseline: bit 0 of every cell is 0 (R64). -/
def State.normalized (s : State) : Prop :=
  ∀ a : CellAddr, a.pixel < s.n → lsb (s.cell a) = false

/-- A valid message: every byte is in 1 to 127 (R18). -/
abbrev validMessage (message : List Byte) : Prop :=
  ∀ x ∈ message, 1 ≤ x.toNat ∧ x.toNat ≤ 127

/-- Cell `a` carries a 1 bit of the message: `a = Slot(m, i, j)` for some `i < L` and `j ≤ 7` with `M[i][7 - j] = 1` (R79). -/
def carriesOne (m : Mode) (message : List Byte) (a : CellAddr) : Prop :=
  ∃ (i : Nat) (byte : Byte) (j : Nat),
    message[i]? = some byte ∧ j ≤ 7 ∧ byte.getLsbD (7 - j) = true ∧ a = slot m i j

/-- The flat bit stream of a mode: bit 0 of the cell `(t div k, chans[t mod k])` for each entry `t`, whether a scan
reads it or not (R83). -/
def State.stream (s : State) (m : Mode) : List Bool :=
  (List.range (s.n * m.k)).map
    (fun t => lsb (s.cell { pixel := t / m.k, channel := m.chans.getD (t % m.k) .r }))

/-- The 8 entries that end at entry `e` exist and are all zero (R84). -/
abbrev zeroWindowAt (bits : List Bool) (e : Nat) : Prop :=
  7 ≤ e ∧ e < bits.length ∧ ∀ d, d < 8 → bits.getD (e - d) true = false

/-- A scan of the stream stops after `len` entries: no zero window ends before the last entry read, and the scan ended with
the stream or with a zero window (R84). -/
abbrev scanStops (bits : List Bool) (len : Nat) : Prop :=
  len ≤ bits.length ∧ (∀ e, e < len - 1 → ¬ zeroWindowAt bits e)
    ∧ (len = bits.length ∨ (0 < len ∧ zeroWindowAt bits (len - 1)))

/-- `B(x)`: the bits of a byte, bit 7 first (R92). -/
def byteBits (x : Byte) : List Bool := (List.range 8).map (fun j => x.getLsbD (7 - j))

/-- `T(m, M)`, the message stream: each byte's bits, followed in RGB mode by a pad bit 0 (R92). -/
def messageStream (m : Mode) (message : List Byte) : List Bool :=
  message.flatMap (fun x => byteBits x ++ (if m.desc.pad then [false] else []))

/-- `T(m, M)` holds 8 consecutive zero entries (R92). -/
abbrev prematureSentinel (m : Mode) (message : List Byte) : Prop :=
  ∃ e, e < (messageStream m message).length ∧ zeroWindowAt (messageStream m message) e

/-- `tz(x)`: the trailing zero bits of a byte, from bit 0 upward (R92). -/
def trailingZeros (x : Byte) : Nat := ((List.range 8).takeWhile (fun i => !x.getLsbD i)).length

/-- `lz(x)`: the leading zero bits of a byte, from bit 7 downward (R92). -/
def leadingZeros (x : Byte) : Nat := ((List.range 8).takeWhile (fun i => !x.getLsbD (7 - i))).length

/-- The lower-case letter of a channel in a flag token: r, g, b (R55). -/
def letter : Channel → Byte
  | .r => 0x72#8
  | .g => 0x67#8
  | .b => 0x62#8

/-- The token spells these channels, in this order and in any letter case (R54, R55). -/
def spells (token : List Byte) (letters : List Channel) : Prop :=
  foldToken token = letters.map letter

end Sys2Proof.Machine
end

