-- ==== Sys2Proof/Certificates/Slice0/Obligations.lean ====
section
/-! DEFINITION. The statements for the provers, rule by rule of spec/. A statement about every state holds for every value of the parameters
`ERR_ORDER`, `CONSUMED_COUNT` and `N_MAX`, which the state carries. Where the old value of a cell matters, the premise is that the
memory is in canonical form, which `StepKeepsInv` and `ResetMeetsInv` are about. -/
open Sys2Proof Sys2Proof.Machine

/-! ## The encoding -/

/-- R49: `Decode(w)` by the match and mask columns of the command map, with 238 illegal words and the two examples. -/
def Obligations.CommandMapIsTotal : Prop :=
  (∀ (w : Byte) (payload : List Byte),
    (w &&& 0xFF#8 = 0x00#8 → decodeCommand ⟨w, payload⟩ = .ok (.selectMode payload)) ∧
    (w &&& 0xFF#8 = 0x01#8 → decodeCommand ⟨w, payload⟩ = .ok .normalize) ∧
    (w &&& 0xE3#8 = 0x02#8 →
      decodeCommand ⟨w, payload⟩ = .ok (.encode (w.extractLsb' 2 3) payload)) ∧
    (w &&& 0xE3#8 = 0x03#8 → decodeCommand ⟨w, payload⟩ = .ok (.decode (w.extractLsb' 2 3))) ∧
    (w &&& 0xFF#8 ≠ 0x00#8 → w &&& 0xFF#8 ≠ 0x01#8 → w &&& 0xE3#8 ≠ 0x02#8 →
      w &&& 0xE3#8 ≠ 0x03#8 → ∃ e, decodeCommand ⟨w, payload⟩ = .error e)) ∧
  ((List.range 256).filter (fun w => (decodeTableWord 8 w).isNone)).length = 238 ∧
  decodeTableWord 8 0x1E = some (.encode Mode.rgb.code []) ∧
  decodeTableWord 8 0x0F = some (.decode Mode.rg.code)

/-- A few words written out from the fields of R41 and the codes of R42 and R44. -/
def Obligations.SampleWordsDecode : Prop :=
  decodeTableWord 8 0b00000000 = some (.selectMode []) ∧
  decodeTableWord 8 0b00000001 = some .normalize ∧
  decodeTableWord 8 0b00011110 = some (.encode 0b111#3 []) ∧
  decodeTableWord 8 0b00010010 = some (.encode 0b100#3 []) ∧
  decodeTableWord 8 0b00001111 = some (.decode 0b011#3) ∧
  decodeTableWord 8 0b00000011 = some (.decode 0b000#3) ∧
  decodeTableWord 8 0b00000101 = none ∧ decodeTableWord 8 0b00100000 = none

/-- Decoding and encoding agree: an encoded instruction decodes to itself, and a command that decodes is the encoded
instruction but for a payload that R46 ignores. -/
def Obligations.EncodedInstructionsDecodeBack : Prop :=
  (∀ i : Instr, decodeCommand (encodeInstr i) = .ok i) ∧
  (∀ (c : Command) (i : Instr), decodeCommand c = .ok i →
    (encodeInstr i).word = c.word ∧
    ((encodeInstr i).payload = c.payload ∨
      ((encodeInstr i).payload = [] ∧ (i = .normalize ∨ ∃ m, i = .decode m))))

/-- R51, R52: the eight mode names, case-sensitive, and the example `ENCODE RGB, "A"`. -/
def Obligations.AssemblerModeNames : Prop :=
  (∀ (name : List Char) (code : ModeCode), modeCodeOfName name = some code ↔
    (name, code) ∈ [(['R', 'G', 'B'], 0b111#3), (['R', 'G'], 0b011#3), (['R', 'B'], 0b101#3),
      (['G', 'B'], 0b110#3), (['R'], 0b001#3), (['G'], 0b010#3), (['B'], 0b100#3),
      (['N', 'O', 'N', 'E'], 0b000#3)]) ∧
  (assemble (.encode ['R', 'G', 'B'] [0x41#8])).map encodeInstr = some ⟨0x1E#8, [0x41#8]⟩

/-! ## Modes, slots and the stream -/

/-- R44: the seven codes name the seven modes, and `000` names none. -/
def Obligations.ModeCodesNameTheModes : Prop :=
  (∀ m : Mode, Mode.ofCode m.code = some m) ∧
  (∀ (code : ModeCode) (m : Mode), Mode.ofCode code = some m → m.code = code) ∧
  (∀ code : ModeCode, Mode.ofCode code = none ↔ code = 0b000#3)

/-- R43: the mode code is a channel mask. -/
def Obligations.ModeCodeIsAChannelMask : Prop :=
  ∀ code : ModeCode, code ≠ 0b000#3 →
    ∃ m, Mode.ofCode code = some m
      ∧ m.chans = [Channel.r, .g, .b].filter (fun c => code.getLsbD c.num)
      ∧ m.chans ≠ []
      ∧ (m.desc.pad = true ↔ code = 0b111#3)

/-- R17: the table of descriptors. -/
def Obligations.DescriptorTable : Prop :=
  ∀ row ∈ [(Mode.rgb, 0b111#3, [Channel.r, .g, .b], 3, true, 9, 3),
      (.rg, 0b011#3, [.r, .g], 2, false, 8, 4), (.rb, 0b101#3, [.r, .b], 2, false, 8, 4),
      (.gb, 0b110#3, [.g, .b], 2, false, 8, 4), (.r, 0b001#3, [.r], 1, false, 8, 8),
      (.g, 0b010#3, [.g], 1, false, 8, 8), (.b, 0b100#3, [.b], 1, false, 8, 8)],
    row = (row.1, row.1.code, row.1.chans, row.1.k, row.1.desc.pad, row.1.groupSize, row.1.ppb)
      ∧ row.1.ppb = row.1.groupSize / row.1.k

/-- R19: the capacity is the number of whole byte groups of the buffer, in every mode. -/
def Obligations.CapacityCountsByteGroups : Prop :=
  ∀ (n : Nat) (m : Mode),
    capacity n m = (n * m.chans.length) / m.groupSize ∧ capacity n m = n / m.ppb ∧
    (m = .rgb → capacity n m = n / 3) ∧
    (m = .rg ∨ m = .rb ∨ m = .gb → capacity n m = n / 4) ∧
    (m = .r ∨ m = .g ∨ m = .b → capacity n m = n / 8)

/-- R61: the slots of one byte group, written out per mode family. -/
def Obligations.SlotLayoutOfEveryFamily : Prop :=
  ∀ i : Nat,
    (List.range 9).map (slot .rgb i) =
      [⟨3 * i, .r⟩, ⟨3 * i, .g⟩, ⟨3 * i, .b⟩, ⟨3 * i + 1, .r⟩, ⟨3 * i + 1, .g⟩, ⟨3 * i + 1, .b⟩,
        ⟨3 * i + 2, .r⟩, ⟨3 * i + 2, .g⟩, ⟨3 * i + 2, .b⟩] ∧
    (∀ m ∈ [Mode.rg, .rb, .gb], (List.range 8).map (slot m i) =
      (List.range 4).flatMap (fun d => m.chans.map (fun c => ⟨4 * i + d, c⟩))) ∧
    (∀ m ∈ [Mode.r, .g, .b], (List.range 8).map (slot m i) =
      (List.range 8).flatMap (fun d => m.chans.map (fun c => ⟨8 * i + d, c⟩)))

/-- R74: "Distinct `(i, j)` give distinct cells", so no cell is written twice by one ENCODE. -/
def Obligations.DistinctSlotsAreDistinctCells : Prop :=
  ∀ (m : Mode) (i j i' j' : Nat), j < m.groupSize → j' < m.groupSize →
    slot m i j = slot m i' j' → i = i' ∧ j = j'

/-- R61, R83: entry `G * i + j` of the flat bit stream is read from `Slot(m, i, j)`. -/
def Obligations.StreamEntriesAreSlots : Prop :=
  ∀ (s : State) (m : Mode) (i j : Nat), j < m.groupSize →
    m.groupSize * i + j < s.n * m.k →
    (s.stream m)[m.groupSize * i + j]? = some (lsb (s.cell (slot m i j)))

/-- R27: `MemRead` returns the cell and changes nothing; `MemWrite` sets its cell and no other. -/
def Obligations.CellAccesses : Prop :=
  ∀ (s : State) (a : CellAddr) (v : Byte), Memory.wf s.mem → a.pixel < s.n →
    s.memRead a = .ok (s.cell a) ∧
    ∃ mem, s.memWrite a v = .ok { s with mem := mem } ∧ Memory.read mem a.key = v ∧
      ∀ b : CellAddr, b ≠ a → Memory.read mem b.key = s.cell b

/-! ## The step, the host and the whole machine -/

/-- R40, R33: a step at which the host issues a command that decodes performs that instruction, the command being taken
off the interface and nothing else around it. -/
def Obligations.StepPerformsTheIssuedCommand : Prop :=
  ∀ (s : State) (c : Command) (rest : List HostMove) (i : Instr),
    s.host = .command c :: rest → decodeCommand c = .ok i →
    step s = exec i { s with host := rest }

/-- R45, R102: an illegal word is not performed: IllegalCommand, no result, nothing else changed; and the 18 other words
are legal. -/
def Obligations.IllegalWordReturnsIllegalCommand : Prop :=
  (∀ (s : State) (c : Command) (rest : List HostMove), s.host = .command c :: rest →
    (c.word.extractLsb' 5 3 ≠ 0#3 ∨
      ((c.word.extractLsb' 0 2 = 0b00#2 ∨ c.word.extractLsb' 0 2 = 0b01#2) ∧
        c.word.extractLsb' 2 3 ≠ 0#3)) →
    step s = .next (({ s with host := rest } : State).respond
      { status := .error .illegalCommand, result := none })) ∧
  (∀ c : Command, c.word.extractLsb' 5 3 = 0#3 →
    ((c.word.extractLsb' 0 2 = 0b00#2 ∨ c.word.extractLsb' 0 2 = 0b01#2) →
      c.word.extractLsb' 2 3 = 0#3) →
    ∃ i, decodeCommand c = .ok i) ∧
  ((List.range 256).filter (fun w => (decodeTableWord 8 w).isSome)).length = 18

/-- R46: NORMALIZE and DECODE ignore a payload. -/
def Obligations.StrayPayloadIsIgnored : Prop :=
  ∀ (s t : State) (w : Byte) (payload payload' : List Byte) (rest : List HostMove),
    (w = 0x01#8 ∨ w &&& 0xE3#8 = 0x03#8) →
    s.host = .command ⟨w, payload⟩ :: rest →
    t = { s with host := .command ⟨w, payload'⟩ :: rest } →
    step s = step t

/-- R24, R111: with no command issued the core is idle; R112: reset between commands does not write the pixel buffer. -/
def Obligations.IdleAndResetChangeNothing : Prop :=
  (∀ s : State, s.host = [] → step s = .next s) ∧
  (∀ (s : State) (rest : List HostMove), s.host = .reset :: rest →
    step s = .next { s with host := rest })

/-- R13, R125: the host hands over a different buffer. That more than `N_MAX` pixels are refused is the model's own
choice (log entry 5). -/
def Obligations.HandOverInstallsTheBuffer : Prop :=
  ∀ (s : State) (pixels : List Pixel) (rest : List HostMove),
    s.host = .handOver pixels :: rest →
    (pixels.length ≤ s.cfg.nMax →
      ∃ mem, step s = .next { s with host := rest, n := pixels.length, mem := mem } ∧
        ∀ (a : CellAddr) (px : Pixel), pixels[a.pixel]? = some px →
          Memory.read mem a.key = px.channel a.channel) ∧
    (s.cfg.nMax < pixels.length → step s = .refused (.bufferAboveNMax pixels.length))

/-- R14, R27: a host write between commands sets its cell and no other. That a write outside the buffer faults is the
model's own choice (log entry 5). -/
def Obligations.HostWriteSetsOneCell : Prop :=
  ∀ (s : State) (a : CellAddr) (v : Byte) (rest : List HostMove), Memory.wf s.mem →
    s.host = .write a v :: rest →
    (a.pixel < s.n → ∃ mem, step s = .next { s with host := rest, mem := mem } ∧
      ∀ b : CellAddr, Memory.read mem b.key = if b = a then v else s.cell b) ∧
    (s.n ≤ a.pixel → step s = .fault (.noSuchCell a))

/-- Every step keeps the invariant: the memory stays canonical, lists only cells of the buffer (R26, R35), and the buffer
stays within `N_MAX` (R6). -/
def Obligations.StepKeepsInv : Prop :=
  ∀ s t : State, s.Inv → step s = .next t → t.Inv

/-- R24, R111: the reset state meets the invariant, holds no command and no response, and stays idle. -/
def Obligations.ResetMeetsInv : Prop :=
  State.reset.Inv ∧ State.reset.host = [] ∧ State.reset.returned = [] ∧
  step State.reset = .next State.reset

/-- R35, R97, R122: every command completes, in every state: none forms an address outside the buffer, none faults and none
is refused. -/
def Obligations.EveryCommandCompletes : Prop :=
  ∀ (i : Instr) (s : State), ∃ t, exec i s = .next t

/-- R40, R48: a command returns exactly one response, with the result of its kind under status OK and none otherwise. -/
def Obligations.CommandReturnsOneResponse : Prop :=
  ∀ (i : Instr) (s t : State), exec i s = .next t →
    ∃ r, t.returned = s.returned ++ [r] ∧
      (r.status ≠ .ok → r.result = none) ∧
      (r.status = .ok →
        ((∃ token, i = .selectMode token) → ∃ code, r.result = some (.mode code)) ∧
        (i = .normalize → r.result = none) ∧
        ((∃ m message, i = .encode m message) → ∃ count, r.result = some (.pixels count)) ∧
        ((∃ m, i = .decode m) → ∃ bytes, r.result = some (.message bytes) ∧
          ∀ x ∈ bytes, 1 ≤ x.toNat ∧ x.toNat ≤ 255))

/-- R47: the numeric status codes. -/
def Obligations.StatusCodes : Prop :=
  Status.code .ok = 0#3 ∧
  Status.code (.error .invalidChannelFlags) = 1#3 ∧
  Status.code (.error .encodingCapacityExceeded) = 2#3 ∧
  Status.code (.error .undefinedByteEncoding) = 3#3 ∧
  Status.code (.error .illegalCommand) = 4#3 ∧
  ∀ st : Status, st.code ≠ 5#3 ∧ st.code ≠ 6#3 ∧ st.code ≠ 7#3

/-- R96: an error is raised only by the commands and for the causes of the taxonomy. -/
def Obligations.ErrorsHaveTheirCauses : Prop :=
  ∀ (i : Instr) (s t : State) (e : Error), exec i s = .next t →
    t.returned = s.returned ++ [{ status := .error e, result := none }] →
    (e = .invalidChannelFlags ∧
      ((∃ token, i = .selectMode token ∧
          ¬ ∃ letters : List Channel, letters ≠ [] ∧ letters.Nodup ∧ spells token letters) ∨
        (∃ message, i = .encode 0b000#3 message) ∨ i = .decode 0b000#3)) ∨
    (e = .encodingCapacityExceeded ∧ ∃ code m message, i = .encode code message ∧
      Mode.ofCode code = some m ∧ capacity s.n m < message.length + 1) ∨
    (e = .undefinedByteEncoding ∧ ∃ code message, i = .encode code message ∧
      ∃ x ∈ message, x.toNat = 0 ∨ 0x7F < x.toNat)

/-- R98: "A command that returns an error has written no cell of the pixel buffer"; nothing else changes but the response
returned. -/
def Obligations.FailedCommandChangesNothing : Prop :=
  ∀ (s t : State) (c : Command) (rest : List HostMove) (r : Response),
    s.host = .command c :: rest → step s = .next t →
    t.returned = s.returned ++ [r] → r.status ≠ .ok →
    t = ({ s with host := rest } : State).respond r

/-- R13: "`N` does not change during a command; no operation changes `N`"; nor the parameters, nor the host's later moves. -/
def Obligations.CommandsKeepNAndParameters : Prop :=
  ∀ (s t : State) (c : Command) (rest : List HostMove),
    s.host = .command c :: rest → step s = .next t →
    t.n = s.n ∧ t.cfg = s.cfg ∧ t.host = rest

/-- R7, R75, the glossary's LSB: bit 0 is "the only bit this protocol modifies". -/
def Obligations.OnlyBitZeroChanges : Prop :=
  ∀ (i : Instr) (s t : State), Memory.wf s.mem → exec i s = .next t →
    ∀ (a : CellAddr) (b : Nat), 1 ≤ b → (t.cell a).getLsbD b = (s.cell a).getLsbD b

/-- R20, R23: what a command does and returns depends on the buffer and the parameters alone, not on what was returned
before or on what the host does later. -/
def Obligations.CommandsDependOnNoOtherCommand : Prop :=
  ∀ (i : Instr) (s s' t t' : State),
    s'.n = s.n → s'.mem = s.mem → s'.cfg = s.cfg →
    exec i s = .next t → exec i s' = .next t' →
    t'.mem = t.mem ∧ ∃ r, t.returned = s.returned ++ [r] ∧ t'.returned = s'.returned ++ [r]

/-- R122, R124: a run of commands, legal or not, is performed to its last command, one response for each, and ends there. -/
def Obligations.RunOfCommandsEnds : Prop :=
  ∀ (commands : List Command) (s : State), s.host = commands.map HostMove.command →
    ∃ t, Host.Core.run Sys2Proof.core commands.length s = .next t ∧ t.host = [] ∧
      ∃ responses : List Response, responses.length = commands.length ∧
        t.returned = s.returned ++ responses

/-! ## SELECT_MODE -/

/-- R53, R55, R57: SELECT_MODE accepts exactly the letter-permutations of a non-empty subset of the letters, returns the mask
of the letters present, and changes nothing but the response. -/
def Obligations.SelectModeAcceptsLetterPermutations : Prop :=
  (∀ (s : State) (token : List Byte) (letters : List Channel),
    letters ≠ [] → letters.Nodup → spells token letters →
    ∃ code : ModeCode,
      exec (.selectMode token) s = .next (s.respond { status := .ok, result := some (.mode code) }) ∧
      ∀ c : Channel, code.getLsbD c.num = decide (c ∈ letters)) ∧
  (∀ (s : State) (token : List Byte),
    (¬ ∃ letters : List Channel, letters ≠ [] ∧ letters.Nodup ∧ spells token letters) →
    exec (.selectMode token) s
      = .next (s.respond { status := .error .invalidChannelFlags, result := none }))

/-- R54, R56: neither the letter case nor the order of the letters matters. -/
def Obligations.SelectModeIgnoresCaseAndOrder : Prop :=
  ∀ (s : State) (token token' : List Byte), (foldToken token).Perm (foldToken token') →
    exec (.selectMode token) s = exec (.selectMode token') s

/-! ## NORMALIZE -/

/-- R63: NORMALIZE clears bit 0 of every channel of every pixel, keeps bits 7 to 1, and returns (OK, none). -/
def Obligations.NormalizeClearsEveryBitZero : Prop :=
  ∀ s : State, Memory.wf s.mem →
    ∃ mem, exec .normalize s
        = .next (({ s with mem := mem } : State).respond { status := .ok, result := none }) ∧
      ∀ a : CellAddr, Memory.read mem a.key
        = if a.pixel < s.n then s.cell a &&& 0xFE#8 else s.cell a

/-- R64: "After NORMALIZE every cell's bit 0 is 0". -/
def Obligations.NormalizeLeavesTheBaseline : Prop :=
  ∀ s t : State, Memory.wf s.mem → exec .normalize s = .next t → t.normalized

/-- R65: normalizing twice leaves the same buffer as once. -/
def Obligations.NormalizeIsIdempotent : Prop :=
  ∀ s t u : State, Memory.wf s.mem → exec .normalize s = .next t → exec .normalize t = .next u →
    u.mem = t.mem ∧ u.n = t.n

/-! ## ENCODE -/

/-- R68: with mode code `000` ENCODE raises InvalidChannelFlags, whatever the message and the buffer. -/
def Obligations.EncodeWithCodeZeroRaises : Prop :=
  ∀ (s : State) (message : List Byte),
    exec (.encode 0b000#3 message) s
      = .next (s.respond { status := .error .invalidChannelFlags, result := none })

/-- R72, R100, R101: which error ENCODE reports; "Either way nothing is written". -/
def Obligations.EncodeReportsItsErrors : Prop :=
  ∀ (s : State) (code : ModeCode) (m : Mode) (message : List Byte),
    Mode.ofCode code = some m →
    ((∃ x ∈ message, x.toNat = 0 ∨ 0x7F < x.toNat) →
      (message.length + 1 ≤ capacity s.n m ∨ s.cfg.errOrder = .byteFirst) →
      exec (.encode code message) s
        = .next (s.respond { status := .error .undefinedByteEncoding, result := none })) ∧
    (capacity s.n m < message.length + 1 →
      ((∀ x ∈ message, x.toNat ≠ 0 ∧ x.toNat ≤ 0x7F) ∨ s.cfg.errOrder = .capacityFirst) →
      exec (.encode code message) s
        = .next (s.respond { status := .error .encodingCapacityExceeded, result := none }))

/-- R70: the capacity boundary, for messages of valid bytes. -/
def Obligations.EncodeCapacityBoundary : Prop :=
  ∀ (s : State) (code : ModeCode) (m : Mode) (message : List Byte),
    Mode.ofCode code = some m → validMessage message →
    (message.length + 1 ≤ capacity s.n m →
      ∃ mem count, exec (.encode code message) s
        = .next (({ s with mem := mem } : State).respond
            { status := .ok, result := some (.pixels count) })) ∧
    (capacity s.n m < message.length + 1 →
      exec (.encode code message) s
        = .next (s.respond { status := .error .encodingCapacityExceeded, result := none }))

/-- R67, R79: the closed form of ENCODE. A cell that carries a 1 bit gets bit 0 set, every other cell of memory is unchanged,
and so is every other field but the response. -/
def Obligations.EncodeClosedForm : Prop :=
  ∀ (s : State) (code : ModeCode) (m : Mode) (message : List Byte),
    Memory.wf s.mem → Mode.ofCode code = some m → validMessage message →
    message.length + 1 ≤ capacity s.n m →
    ∃ mem count, exec (.encode code message) s
        = .next (({ s with mem := mem } : State).respond
            { status := .ok, result := some (.pixels count) }) ∧
      ∀ a : CellAddr,
        (carriesOne m message a → Memory.read mem a.key = s.cell a ||| 0x01#8) ∧
        (¬ carriesOne m message a → Memory.read mem a.key = s.cell a)

/-- R79: on a normalized buffer, bit 0 of a data slot is exactly its message bit, and bit 0 of every other cell is 0. -/
def Obligations.EncodeOnBaselineStoresTheMessage : Prop :=
  ∀ (s t : State) (code : ModeCode) (m : Mode) (message : List Byte),
    Memory.wf s.mem → s.normalized → Mode.ofCode code = some m → validMessage message →
    message.length + 1 ≤ capacity s.n m → exec (.encode code message) s = .next t →
    (∀ (i j : Nat) (byte : Byte), message[i]? = some byte → j ≤ 7 →
      lsb (t.cell (slot m i j)) = byte.getLsbD (7 - j)) ∧
    (∀ a : CellAddr, a.pixel < s.n →
      (∀ i j : Nat, i < message.length → j ≤ 7 → a ≠ slot m i j) → lsb (t.cell a) = false)

/-- R79: "Applying the same ENCODE twice gives the same buffer as applying it once". -/
def Obligations.EncodeTwiceIsEncodeOnce : Prop :=
  ∀ (s t u : State) (code : ModeCode) (message : List Byte), Memory.wf s.mem →
    exec (.encode code message) s = .next t → exec (.encode code message) t = .next u →
    u.mem = t.mem

/-- R78: `pixels_consumed` under either value of `CONSUMED_COUNT`. -/
def Obligations.EncodeCountsItsPixels : Prop :=
  ∀ (s t : State) (code : ModeCode) (m : Mode) (message : List Byte) (count : Nat),
    Mode.ofCode code = some m → exec (.encode code message) s = .next t →
    t.returned = s.returned ++ [{ status := .ok, result := some (.pixels count) }] →
    (s.cfg.consumedCount = .spanned → count = message.length * m.ppb) ∧
    (s.cfg.consumedCount = .modified →
      ∃ pixels : Finset Nat, count = pixels.card ∧
        ∀ p, p ∈ pixels ↔ ∃ a : CellAddr, carriesOne m message a ∧ a.pixel = p)

/-- R76: the cells ENCODE never writes, whether it completes or fails. -/
def Obligations.EncodeNeverWritesTheseCells : Prop :=
  ∀ (s t : State) (code : ModeCode) (m : Mode) (message : List Byte), Memory.wf s.mem →
    Mode.ofCode code = some m → exec (.encode code message) s = .next t →
    ∀ a : CellAddr,
      ((m = .rgb ∧ ∃ i, a = slot .rgb i 8) ∨
        a.channel ∉ m.chans ∨
        message.length * m.ppb ≤ a.pixel ∨
        (∃ (i j : Nat) (byte : Byte), message[i]? = some byte ∧ j ≤ 7 ∧
          byte.getLsbD (7 - j) = false ∧ a = slot m i j)) →
      t.cell a = s.cell a

/-- R80: the empty message. -/
def Obligations.EncodeOfTheEmptyMessage : Prop :=
  ∀ (s : State) (code : ModeCode) (m : Mode), Mode.ofCode code = some m →
    (1 ≤ capacity s.n m →
      exec (.encode code []) s
        = .next (s.respond { status := .ok, result := some (.pixels 0) })) ∧
    (capacity s.n m = 0 →
      exec (.encode code []) s
        = .next (s.respond { status := .error .encodingCapacityExceeded, result := none }))

/-- R69: ENCODE's checks, and so what it returns, read only the mode, the message and `N` (with the parameters), never a
cell of the buffer. -/
def Obligations.EncodeResponseReadsNoCell : Prop :=
  ∀ (s s' t t' : State) (code : ModeCode) (message : List Byte),
    s'.n = s.n → s'.cfg = s.cfg →
    exec (.encode code message) s = .next t → exec (.encode code message) s' = .next t' →
    ∃ r, t.returned = s.returned ++ [r] ∧ t'.returned = s'.returned ++ [r]

/-- R121: a second ENCODE without a NORMALIZE between gives the OR of what each of the two alone would leave. -/
def Obligations.ReEncodingOrsThePatterns : Prop :=
  ∀ (s t u v : State) (code code' : ModeCode) (message message' : List Byte),
    Memory.wf s.mem →
    exec (.encode code message) s = .next t →
    exec (.encode code' message') t = .next u →
    exec (.encode code' message') s = .next v →
    ∀ a : CellAddr, u.cell a = t.cell a ||| v.cell a

/-! ## DECODE -/

/-- R82: with mode code `000` DECODE raises InvalidChannelFlags, whatever the buffer. -/
def Obligations.DecodeWithCodeZeroRaises : Prop :=
  ∀ s : State, exec (.decode 0b000#3) s
    = .next (s.respond { status := .error .invalidChannelFlags, result := none })

/-- R89, R90: for every other mode code DECODE completes with a sequence of bytes in 1 to 255, writes no cell and changes
nothing but the response, whatever the buffer holds. -/
def Obligations.DecodeReturnsNonZeroBytes : Prop :=
  ∀ (s : State) (code : ModeCode), code ≠ 0b000#3 →
    ∃ out : List Byte,
      exec (.decode code) s = .next (s.respond { status := .ok, result := some (.message out) }) ∧
      ∀ x ∈ out, 1 ≤ x.toNat ∧ x.toNat ≤ 255

/-- R83, R84: the bit buffer is the flat bit stream up to and with the first 8-zero window, wherever it falls, or the
whole stream where there is none. -/
def Obligations.ScanStopsAtTheFirstSentinel : Prop :=
  ∀ (s : State) (m : Mode), ∃ len, scanStops (s.stream m) len ∧
    s.scan (streamCells m s.n) [] = .ok ((s.stream m).take len)

/-- R85 to R88: the bytes of the whole groups read, in order, up to the first zero byte; entry 8 of an RGB group and an
incomplete last group are no part of any byte. -/
def Obligations.DecodeRegroupsTheStream : Prop :=
  ∀ (s : State) (code : ModeCode) (m : Mode) (len : Nat),
    Mode.ofCode code = some m → scanStops (s.stream m) len →
    ∃ out : List Byte,
      exec (.decode code) s = .next (s.respond { status := .ok, result := some (.message out) }) ∧
      out.length ≤ len / m.groupSize ∧
      (∀ (g : Nat) (byte : Byte), out[g]? = some byte → byte ≠ 0#8 ∧
        ∀ e, e ≤ 7 → (s.stream m)[m.groupSize * g + e]? = some (byte.getLsbD (7 - e))) ∧
      (out.length = len / m.groupSize ∨
        ∀ e, e ≤ 7 → (s.stream m)[m.groupSize * out.length + e]? = some false)

/-- R94: where the zero-byte test can fire. -/
def Obligations.ZeroByteEndsOnlyTheLastGroup : Prop :=
  ∀ (s : State) (code : ModeCode) (m : Mode) (len : Nat) (out : List Byte),
    Mode.ofCode code = some m → scanStops (s.stream m) len →
    exec (.decode code) s = .next (s.respond { status := .ok, result := some (.message out) }) →
    (m = .rgb → out.length = len / 9) ∧
    len / m.groupSize ≤ out.length + 1 ∧
    (out.length < len / m.groupSize →
      len = 8 * (out.length + 1) ∧ zeroWindowAt (s.stream m) (len - 1))

/-- R95: the bounds on the output's length. -/
def Obligations.DecodedLengthIsBounded : Prop :=
  (∀ (s : State) (code : ModeCode) (m : Mode) (len : Nat) (out : List Byte),
    Mode.ofCode code = some m → scanStops (s.stream m) len →
    exec (.decode code) s = .next (s.respond { status := .ok, result := some (.message out) }) →
    out.length ≤ len / m.groupSize ∧ len / m.groupSize ≤ capacity s.n m) ∧
  (∀ (s t : State) (code : ModeCode) (m : Mode) (message out : List Byte) (count : Nat),
    Memory.wf s.mem → s.normalized → Mode.ofCode code = some m →
    exec (.encode code message) s = .next t →
    t.returned = s.returned ++ [{ status := .ok, result := some (.pixels count) }] →
    exec (.decode code) t = .next (t.respond { status := .ok, result := some (.message out) }) →
    out.length ≤ message.length)

/-- R32, R83: what DECODE returns depends only on `N` and on bit 0 of the cells of the mode's channels. -/
def Obligations.DecodeReadsOnlyItsBits : Prop :=
  ∀ (s s' : State) (code : ModeCode) (m : Mode) (out : List Byte),
    Mode.ofCode code = some m → s'.n = s.n →
    (∀ a : CellAddr, a.pixel < s.n → a.channel ∈ m.chans → lsb (s'.cell a) = lsb (s.cell a)) →
    exec (.decode code) s = .next (s.respond { status := .ok, result := some (.message out) }) →
    exec (.decode code) s' = .next (s'.respond { status := .ok, result := some (.message out) })

/-- R92: a valid message has a premature sentinel exactly when two adjacent bytes have enough zeros between their 1 bits; with
the rule's examples "@A" and "  " in RGB mode, and "@ " in every mode. -/
def Obligations.PrematureSentinelByZeroCounts : Prop :=
  (∀ (m : Mode) (message : List Byte), validMessage message →
    (prematureSentinel m message ↔
      ∃ (i : Nat) (a b : Byte), message[i]? = some a ∧ message[i + 1]? = some b ∧
        8 ≤ trailingZeros a + (if m = .rgb then 1 else 0) + leadingZeros b)) ∧
  prematureSentinel .rgb [0x40#8, 0x41#8] ∧ prematureSentinel .rgb [0x20#8, 0x20#8] ∧
  ∀ m : Mode, prematureSentinel m [0x40#8, 0x20#8]

/-- R93: the round trip. NORMALIZE, ENCODE, DECODE under one mode return the message if and only if its stream has no
premature sentinel, and otherwise the proper prefix that the first 8-zero window cuts off. -/
def Obligations.RoundTripUnlessPrematureSentinel : Prop :=
  ∀ (s t u : State) (code : ModeCode) (m : Mode) (message : List Byte),
    Memory.wf s.mem → Mode.ofCode code = some m → validMessage message →
    message.length + 1 ≤ capacity s.n m →
    exec .normalize s = .next t → exec (.encode code message) t = .next u →
    (∃ count, u.returned = t.returned ++ [{ status := .ok, result := some (.pixels count) }]) ∧
    ∃ out : List Byte,
      exec (.decode code) u = .next (u.respond { status := .ok, result := some (.message out) }) ∧
      (out = message ↔ ¬ prematureSentinel m message) ∧
      ∀ e, zeroWindowAt (messageStream m message) e →
        (∀ e', e' < e → ¬ zeroWindowAt (messageStream m message) e') →
        (e + 1) / m.groupSize < message.length ∧
        out = message.take ((e + 1) / m.groupSize)
end

