-- ==== Sys2Proof/Laws/State.lean ====
section
/-! SUPPORT. One lemma per field per update of the state: none of the proofs after it unfolds a record update. -/
namespace Sys2Proof.Machine

@[simp] theorem respond_cfg (s : State) (r : Response) : (s.respond r).cfg = s.cfg := rfl
@[simp] theorem respond_n (s : State) (r : Response) : (s.respond r).n = s.n := rfl
@[simp] theorem respond_mem (s : State) (r : Response) : (s.respond r).mem = s.mem := rfl
@[simp] theorem respond_host (s : State) (r : Response) : (s.respond r).host = s.host := rfl
@[simp] theorem respond_returned (s : State) (r : Response) :
    (s.respond r).returned = s.returned ++ [r] := rfl
@[simp] theorem respond_cell (s : State) (r : Response) (a : CellAddr) :
    (s.respond r).cell a = s.cell a := rfl

@[simp] theorem withHost_cell (s : State) (moves : List HostMove) (a : CellAddr) :
    ({ s with host := moves } : State).cell a = s.cell a := rfl
@[simp] theorem withMem_cell (s : State) (mem : Memory) (a : CellAddr) :
    ({ s with mem := mem } : State).cell a = Memory.read mem a.key := rfl

@[simp] theorem complete_eq (result : Option Result) (s : State) :
    complete result s = .next (s.respond { status := .ok, result := result }) := rfl
@[simp] theorem raise_eq (e : Error) (s : State) :
    raise e s = .next (s.respond { status := .error e, result := none }) := rfl

@[simp] theorem withFetchWord_cfg (s : State) (b w : Nat) : (s.withFetchWord b w).cfg = s.cfg := rfl
@[simp] theorem withFetchWord_n (s : State) (b w : Nat) : (s.withFetchWord b w).n = s.n := rfl
@[simp] theorem withFetchWord_mem (s : State) (b w : Nat) : (s.withFetchWord b w).mem = s.mem := rfl
@[simp] theorem withFetchWord_returned (s : State) (b w : Nat) :
    (s.withFetchWord b w).returned = s.returned := rfl

end Sys2Proof.Machine
end

