-- ==== Sys2Proof/Laws/Memory.lean ====
section
/-! SUPPORT. The laws of the memory: read after write, the canonical form is kept, and two canonical memories that read
alike are equal. -/
namespace Sys2Proof.Machine

/-- A key below every listed key reads as blank. -/
theorem read_of_forall_lt (mem : Memory) (k : Nat) (h : ∀ x ∈ mem, k < x.1) :
    Memory.read mem k = blankByte := by
  induction mem with
  | nil => rfl
  | cons x rest ih =>
    have hx := h x (by simp)
    simp only [Memory.read]
    rw [if_neg (by omega)]
    exact ih (fun y hy => h y (by simp [hy]))

/-- The keys after a write are the old ones and the key written. -/
theorem mem_write_key (mem : Memory) (k : Nat) (v : Byte) (x : Host.Cell)
    (h : x ∈ Memory.write mem k v) : x.1 = k ∨ x ∈ mem := by
  induction mem with
  | nil => simp only [Memory.write] at h; split at h <;> simp_all
  | cons y rest ih =>
    simp only [Memory.write] at h
    split at h
    · rcases List.mem_cons.mp h with h | h
      · simp [h]
      · rcases ih h with h | h <;> simp [h]
    · have hor : x = (k, v) ∨ x ∈ y :: rest := by
        split at h <;> split at h
        · exact Or.inr (List.mem_cons_of_mem y h)
        · exact (List.mem_cons.mp h).imp_right (List.mem_cons_of_mem y)
        · exact Or.inr h
        · exact List.mem_cons.mp h
      exact hor.imp_left (congrArg Prod.fst)

/-- Every listed key after a write is below a bound that the old keys and the key written are below. -/
theorem write_key_lt (mem : Memory) (k : Nat) (v : Byte) (bound : Nat) (hk : k < bound)
    (h : ∀ x ∈ mem, x.1 < bound) : ∀ x ∈ Memory.write mem k v, x.1 < bound := by
  intro x hx
  rcases mem_write_key mem k v x hx with h' | h'
  · omega
  · exact h x h'

/-- A write keeps the canonical form. -/
theorem write_wf (mem : Memory) (k : Nat) (v : Byte) (h : Memory.wf mem) :
    Memory.wf (Memory.write mem k v) := by
  induction mem with
  | nil =>
    simp only [Memory.write]
    split
    · exact ⟨List.Pairwise.nil, fun x hx => absurd hx (by simp)⟩
    · rename_i hv
      exact ⟨List.pairwise_singleton _ _, fun x hx => List.mem_singleton.mp hx ▸ hv⟩
  | cons y rest ih =>
    obtain ⟨hs, hb⟩ := h
    rw [List.pairwise_cons] at hs
    have hrest : Memory.wf rest := ⟨hs.2, fun x hx => hb x (by simp [hx])⟩
    have hy := hb y (by simp)
    simp only [Memory.write]
    split
    · refine ⟨List.pairwise_cons.mpr ⟨?_, (ih hrest).1⟩, ?_⟩
      · intro x hx
        rcases mem_write_key rest k v x hx with h' | h'
        · omega
        · exact hs.1 x h'
      · intro x hx
        rcases List.mem_cons.mp hx with h' | h'
        · exact h' ▸ hy
        · exact (ih hrest).2 x h'
    · split
      · rename_i hk
        split
        · exact hrest
        · rename_i hv
          exact ⟨List.pairwise_cons.mpr ⟨fun x hx => hk ▸ hs.1 x hx, hrest.1⟩,
            fun x hx => (List.mem_cons.mp hx).elim (fun e => e ▸ hv) (hrest.2 x)⟩
      · split
        · exact ⟨List.pairwise_cons.mpr hs, hb⟩
        · rename_i hv
          refine ⟨List.pairwise_cons.mpr ⟨?_, List.pairwise_cons.mpr hs⟩,
            fun x hx => (List.mem_cons.mp hx).elim (fun e => e ▸ hv) (hb x)⟩
          intro x hx
          rcases List.mem_cons.mp hx with h' | h'
          · rw [h']; show k < y.1; omega
          · have := hs.1 x h'; show k < x.1; omega

/-- What a key reads as after a write: the value written under its own key, the old value under every other. -/
theorem read_write (mem : Memory) (k : Nat) (v : Byte) (j : Nat) (h : Memory.wf mem) :
    Memory.read (Memory.write mem k v) j = if j = k then v else Memory.read mem j := by
  induction mem with
  | nil =>
    simp only [Memory.write, Memory.read]
    split
    · rename_i hv; simp [Memory.read, hv]
    · simp only [Memory.read, eq_comm]
  | cons y rest ih =>
    obtain ⟨hs, hb⟩ := h
    rw [List.pairwise_cons] at hs
    have hrest : Memory.wf rest := ⟨hs.2, fun x hx => hb x (by simp [hx])⟩
    have hblank : ∀ i, i ≤ y.1 → Memory.read rest i = blankByte := fun i hi =>
      read_of_forall_lt rest i (fun x hx => lt_of_le_of_lt hi (hs.1 x hx))
    simp only [Memory.write]
    split
    · simp only [Memory.read, ih hrest]
      by_cases h1 : y.1 = j
      · rw [if_pos h1, if_neg (by omega), if_pos h1]
      · simp only [if_neg h1]
    · split
      · rename_i hk
        split
        · rename_i hv
          by_cases h1 : j = k
          · rw [if_pos h1, hblank j (by omega), hv]
          · simp only [Memory.read]
            rw [if_neg h1, if_neg (by omega)]
        · simp only [Memory.read]
          by_cases h1 : j = k
          · rw [if_pos h1.symm, if_pos h1]
          · rw [if_neg (Ne.symm h1), if_neg h1, if_neg (by omega)]
      · split
        · rename_i hv
          by_cases h1 : j = k
          · rw [if_pos h1]
            simp only [Memory.read]
            rw [if_neg (by omega), hblank j (by omega), hv]
          · rw [if_neg h1]
        · by_cases h1 : j = k
          · simp only [Memory.read]; rw [if_pos h1.symm, if_pos h1]
          · simp only [Memory.read]; rw [if_neg (Ne.symm h1), if_neg h1]

/-- Two canonical memories that read alike under every key are the same data. -/
theorem memory_ext (mem mem' : Memory) (h : Memory.wf mem) (h' : Memory.wf mem')
    (hr : ∀ k, Memory.read mem k = Memory.read mem' k) : mem = mem' := by
  induction mem generalizing mem' with
  | nil =>
    cases mem' with
    | nil => rfl
    | cons y rest' =>
      have := hr y.1
      simp only [Memory.read, if_pos] at this
      exact absurd this.symm (h'.2 y (by simp))
  | cons x rest ih =>
    cases mem' with
    | nil =>
      have := hr x.1
      simp only [Memory.read, if_pos] at this
      exact absurd this (h.2 x (by simp))
    | cons y rest' =>
      obtain ⟨hs, hb⟩ := h
      obtain ⟨hs', hb'⟩ := h'
      rw [List.pairwise_cons] at hs hs'
      have e1 : x.1 = y.1 := by
        rcases Nat.lt_trichotomy x.1 y.1 with hlt | heq | hgt
        · have hx := hr x.1
          simp only [Memory.read, if_pos] at hx
          rw [if_neg (by omega), read_of_forall_lt rest' x.1
            (fun z hz => lt_trans hlt (hs'.1 z hz))] at hx
          exact absurd hx (hb x (by simp))
        · exact heq
        · have hy := hr y.1
          simp only [Memory.read, if_pos] at hy
          rw [if_neg (by omega), read_of_forall_lt rest y.1
            (fun z hz => lt_trans hgt (hs.1 z hz))] at hy
          exact absurd hy.symm (hb' y (by simp))
      have e2 : x.2 = y.2 := by
        have hx := hr x.1
        simp only [Memory.read, if_pos] at hx
        rwa [if_pos e1.symm] at hx
      have e3 : rest = rest' := by
        refine ih rest' ⟨hs.2, fun z hz => hb z (by simp [hz])⟩
          ⟨hs'.2, fun z hz => hb' z (by simp [hz])⟩ (fun k => ?_)
        by_cases hk : x.1 = k
        · rw [read_of_forall_lt rest k (fun z hz => hk ▸ hs.1 z hz),
            read_of_forall_lt rest' k (fun z hz => hk ▸ e1 ▸ hs'.1 z hz)]
        · have := hr k
          simp only [Memory.read] at this
          rwa [if_neg hk, if_neg (e1 ▸ hk)] at this
      rw [e3, Prod.ext e1 e2]

end Sys2Proof.Machine
end

