-- ==== Sys2Proof/Laws/Cells.lean ====
section
/-! SUPPORT. One lemma per shared operation over the cells that says everything it can do: the cell accesses, the walk of NORMALIZE
and ENCODE, the buffer the host hands over, and DECODE's scan. -/
namespace Sys2Proof.Machine

theorem channel_num_lt (c : Channel) : c.num < 3 := by cases c <;> decide

theorem channel_num_injective (c d : Channel) (h : c.num = d.num) : c = d := by
  cases c <;> cases d <;> first | rfl | exact absurd h (by decide)

/-- One key for each cell. -/
theorem key_injective (a b : CellAddr) : a.key = b.key ↔ a = b := by
  constructor
  · intro h
    obtain ⟨p, c⟩ := a
    obtain ⟨q, d⟩ := b
    simp only [CellAddr.key] at h
    have hc := channel_num_lt c
    have hd := channel_num_lt d
    have hp : p = q := by omega
    subst hp
    rw [channel_num_injective c d (by omega)]
  · exact congrArg CellAddr.key

/-- Every key is some cell's. -/
theorem exists_key (k : Nat) : ∃ a : CellAddr, a.key = k := by
  have h : k % 3 = 0 ∨ k % 3 = 1 ∨ k % 3 = 2 := by omega
  rcases h with h | h | h
  · exact ⟨⟨k / 3, .r⟩, by simp only [CellAddr.key, Channel.num]; omega⟩
  · exact ⟨⟨k / 3, .g⟩, by simp only [CellAddr.key, Channel.num]; omega⟩
  · exact ⟨⟨k / 3, .b⟩, by simp only [CellAddr.key, Channel.num]; omega⟩

theorem key_lt (a : CellAddr) (n : Nat) (h : a.pixel < n) : a.key < 3 * n := by
  have := channel_num_lt a.channel
  simp only [CellAddr.key]
  omega

/-- Two canonical memories that hold the same cells are the same data. -/
theorem memory_ext_cells (s t : State) (hs : Memory.wf s.mem) (ht : Memory.wf t.mem)
    (h : ∀ a, s.cell a = t.cell a) : s.mem = t.mem :=
  memory_ext s.mem t.mem hs ht (fun k => by
    obtain ⟨a, rfl⟩ := exists_key k
    exact h a)

theorem memRead_eq (s : State) (a : CellAddr) (h : a.pixel < s.n) :
    s.memRead a = .ok (s.cell a) := if_pos h

theorem memWrite_eq (s : State) (a : CellAddr) (v : Byte) (h : a.pixel < s.n) :
    s.memWrite a v = .ok { s with mem := Memory.write s.mem a.key v } := if_pos h

/-- What a cell holds after a write: the value written in its own cell, the old value in every other (R27). -/
theorem cell_write (s : State) (a b : CellAddr) (v : Byte) (h : Memory.wf s.mem) :
    ({ s with mem := Memory.write s.mem a.key v } : State).cell b
      = if b = a then v else s.cell b := by
  simp only [State.cell]
  rw [read_write s.mem a.key v b.key h]
  by_cases hb : b = a
  · rw [if_pos ((key_injective b a).mpr hb), if_pos hb]
  · rw [if_neg (fun e => hb ((key_injective b a).mp e)), if_neg hb]

/-- The read-modify-write of a cell of the buffer completes and changes no field but the memory. -/
theorem modifyCell_eq (f : Byte → Byte) (s : State) (a : CellAddr) (h : a.pixel < s.n) :
    s.modifyCell f a = .ok { s with mem := Memory.write s.mem a.key (f (s.cell a)) } := by
  simp only [State.modifyCell, memRead_eq s a h, memWrite_eq s a _ h]

/-- The walk over cells of the buffer completes, and changes no field but the memory. -/
theorem modifyCells_completes (f : Byte → Byte) (cells : List CellAddr) (s : State)
    (h : ∀ a ∈ cells, a.pixel < s.n) :
    ∃ mem, s.modifyCells f cells = .ok { s with mem := mem } := by
  induction cells generalizing s with
  | nil => exact ⟨s.mem, rfl⟩
  | cons a rest ih =>
    simp only [State.modifyCells, modifyCell_eq f s a (h a (by simp))]
    obtain ⟨mem, hm⟩ := ih { s with mem := Memory.write s.mem a.key (f (s.cell a)) }
      (fun b hb => h b (by simp [hb]))
    exact ⟨mem, hm⟩

/-- Everything the walk with an idempotent function can do: no field but the memory changes, the memory stays canonical and
lists only cells of the buffer, each cell walked holds the function of its old value, and every other cell its old value. -/
theorem modifyCells_spec (f : Byte → Byte) (hf : ∀ v, f (f v) = f v) (cells : List CellAddr)
    (s t : State) (hwf : Memory.wf s.mem) (hin : ∀ a ∈ cells, a.pixel < s.n)
    (ht : s.modifyCells f cells = .ok t) :
    t = { s with mem := t.mem } ∧ Memory.wf t.mem
      ∧ ((∀ x ∈ s.mem, x.1 < 3 * s.n) → ∀ x ∈ t.mem, x.1 < 3 * s.n)
      ∧ ∀ a, t.cell a = if a ∈ cells then f (s.cell a) else s.cell a := by
  induction cells generalizing s with
  | nil =>
    simp only [State.modifyCells, Except.ok.injEq] at ht
    subst ht
    exact ⟨rfl, hwf, id, fun a => by simp⟩
  | cons b rest ih =>
    have hb : b.pixel < s.n := hin b (by simp)
    simp only [State.modifyCells, modifyCell_eq f s b hb] at ht
    obtain ⟨h1, h2, h3, h4⟩ := ih { s with mem := Memory.write s.mem b.key (f (s.cell b)) }
      (write_wf s.mem b.key _ hwf)
      (fun a ha => hin a (by simp [ha])) ht
    refine ⟨h1, h2, fun hk => h3 (write_key_lt _ _ _ _ (key_lt b s.n hb) hk), fun a => ?_⟩
    rw [h4 a, cell_write s b a _ hwf]
    by_cases hab : a = b
    · subst hab
      by_cases hr : a ∈ rest <;> simp [hr, hf]
    · by_cases hr : a ∈ rest <;> simp [hr, hab]

theorem clearLsb_idem (v : Byte) : clearLsb (clearLsb v) = clearLsb v := by
  simp only [clearLsb]; rw [BitVec.and_assoc, BitVec.and_self]

theorem setLsb_idem (v : Byte) : setLsb (setLsb v) = setLsb v := by
  simp only [setLsb]; rw [BitVec.or_assoc, BitVec.or_self]

/-- Bit 0 of a cleared value is 0, and the other bits are kept (R63). -/
theorem clearLsb_bit (v : Byte) (b : Nat) :
    (clearLsb v).getLsbD b = (decide (b ≠ 0) && v.getLsbD b) := by
  by_cases hb : b < 8
  · have h : b = 0 ∨ b = 1 ∨ b = 2 ∨ b = 3 ∨ b = 4 ∨ b = 5 ∨ b = 6 ∨ b = 7 := by omega
    rcases h with h | h | h | h | h | h | h | h <;> subst h <;> simp [clearLsb]
  · rw [BitVec.getLsbD_of_ge _ _ (by omega), BitVec.getLsbD_of_ge v _ (by omega)]
    simp

/-- Bit 0 of a set value is 1, and the other bits are kept (R75). -/
theorem setLsb_bit (v : Byte) (b : Nat) :
    (setLsb v).getLsbD b = (decide (b = 0) || v.getLsbD b) := by
  by_cases hb : b < 8
  · have h : b = 0 ∨ b = 1 ∨ b = 2 ∨ b = 3 ∨ b = 4 ∨ b = 5 ∨ b = 6 ∨ b = 7 := by omega
    rcases h with h | h | h | h | h | h | h | h <;> subst h <;> simp [setLsb]
  · rw [BitVec.getLsbD_of_ge _ _ (by omega), BitVec.getLsbD_of_ge v _ (by omega)]
    simp; omega

@[simp] theorem lsb_clearLsb (v : Byte) : lsb (clearLsb v) = false := by
  simp only [lsb, clearLsb_bit]; simp

@[simp] theorem lsb_setLsb (v : Byte) : lsb (setLsb v) = true := by
  simp only [lsb, setLsb_bit]; simp

/-- The buffer the host hands over: its pixels from pixel `p` on stand in their cells, every other cell is as it was. -/
theorem read_writePixels (pixels : List Pixel) (p : Nat) (mem : Memory) (hwf : Memory.wf mem)
    (a : CellAddr) :
    Memory.read (Memory.writePixels p pixels mem) a.key
      = if h : p ≤ a.pixel ∧ a.pixel < p + pixels.length
        then (pixels[a.pixel - p]'(by omega)).channel a.channel
        else Memory.read mem a.key := by
  induction pixels generalizing p mem with
  | nil => simp only [Memory.writePixels, List.length_nil]; rw [dif_neg (by omega)]
  | cons px rest ih =>
    have w1 := write_wf mem (CellAddr.key ⟨p, .r⟩) px.r hwf
    have w2 := write_wf _ (CellAddr.key ⟨p, .g⟩) px.g w1
    have w3 := write_wf _ (CellAddr.key ⟨p, .b⟩) px.b w2
    rw [Memory.writePixels, ih (p + 1) _ w3, read_write _ _ _ _ w2, read_write _ _ _ _ w1,
      read_write _ _ _ _ hwf]
    obtain ⟨q, c⟩ := a
    simp only [List.length_cons]
    by_cases h1 : p + 1 ≤ q ∧ q < p + 1 + rest.length
    · rw [dif_pos h1, dif_pos (by omega)]
      congr 1
      have hq : q - p = (q - (p + 1)) + 1 := by omega
      simp only [hq, List.getElem_cons_succ]
    · rw [dif_neg h1]
      by_cases h2 : p ≤ q ∧ q < p + (rest.length + 1)
      · have hq : q = p := by omega
        subst hq
        rw [dif_pos h2]
        simp only [Nat.sub_self, List.getElem_cons_zero]
        cases c <;> simp [CellAddr.key, Channel.num, Pixel.channel]
      · rw [dif_neg h2]
        have hq : q ≠ p := by omega
        simp only [key_injective, CellAddr.mk.injEq, hq, false_and, if_false]

/-- Handing pixels over keeps the canonical form. -/
theorem writePixels_wf (pixels : List Pixel) (p : Nat) (mem : Memory) (hwf : Memory.wf mem) :
    Memory.wf (Memory.writePixels p pixels mem) := by
  induction pixels generalizing p mem with
  | nil => exact hwf
  | cons px rest ih => exact ih _ _ (write_wf _ _ _ (write_wf _ _ _ (write_wf _ _ _ hwf)))

/-- Handing `n` pixels over lists only cells of a buffer that holds them all. -/
theorem writePixels_key_lt (pixels : List Pixel) (p bound : Nat) (mem : Memory)
    (hb : p + pixels.length ≤ bound) (h : ∀ x ∈ mem, x.1 < 3 * bound) :
    ∀ x ∈ Memory.writePixels p pixels mem, x.1 < 3 * bound := by
  induction pixels generalizing p mem with
  | nil => exact h
  | cons px rest ih =>
    simp only [List.length_cons] at hb
    refine ih (p + 1) _ (by omega) ?_
    refine write_key_lt _ _ _ _ (key_lt ⟨p, .b⟩ bound (by show p < bound; omega)) ?_
    refine write_key_lt _ _ _ _ (key_lt ⟨p, .g⟩ bound (by show p < bound; omega)) ?_
    exact write_key_lt _ _ _ _ (key_lt ⟨p, .r⟩ bound (by show p < bound; omega)) h

/-- Everything DECODE's scan can do over cells of the buffer: it completes with the bit buffer it began with and then a part
of the stream, the sentinel test failed after every bit but perhaps the last, and the scan ended with the last cell or with
the test. -/
theorem scan_spec (s : State) (cells : List CellAddr) (bits : List Bool)
    (hin : ∀ a ∈ cells, a.pixel < s.n) :
    ∃ k, k ≤ cells.length
      ∧ s.scan cells bits = .ok (bits ++ (cells.take k).map (fun a => lsb (s.cell a)))
      ∧ (∀ j, 0 < j → j < k →
          sentinel (bits ++ (cells.take j).map (fun a => lsb (s.cell a))) = false)
      ∧ (k = cells.length ∨
          0 < k ∧ sentinel (bits ++ (cells.take k).map (fun a => lsb (s.cell a))) = true) := by
  induction cells generalizing bits with
  | nil => exact ⟨0, by simp, by simp [State.scan], fun j _ hj => absurd hj (by omega), .inl rfl⟩
  | cons a rest ih =>
    simp only [State.scan, memRead_eq s a (hin a (by simp))]
    by_cases hs : sentinel (bits ++ [lsb (s.cell a)]) = true
    · exact ⟨1, by simp, by simp [hs], fun j h0 h1 => absurd h1 (by omega),
        .inr ⟨by omega, by simpa using hs⟩⟩
    · obtain ⟨k, h1, h2, h3, h4⟩ := ih (bits ++ [lsb (s.cell a)])
        (fun b hb => hin b (by simp [hb]))
      refine ⟨k + 1, by simp [h1], ?_, ?_, ?_⟩
      · rw [if_neg hs, h2]
        simp
      · intro j h0 hj
        obtain ⟨i, rfl⟩ : ∃ i, j = i + 1 := ⟨j - 1, by omega⟩
        by_cases hi : i = 0
        · subst hi; simpa using hs
        · simpa using h3 i (by omega) (by omega)
      · rcases h4 with h4 | ⟨h4, h5⟩
        · exact .inl (by simp [h4])
        · exact .inr ⟨by omega, by simpa using h5⟩

end Sys2Proof.Machine
end

