-- ==== Sys2Proof/Laws/Operands.lean ====
section
/-! SUPPORT. The operand forms: the sizes of the modes, the cells each command walks and their bounds, and the two conditions of
ENCODE, each said once. -/
namespace Sys2Proof.Machine

theorem k_pos (m : Mode) : 0 < m.k := by cases m <;> decide

theorem ppb_pos (m : Mode) : 0 < m.ppb := by cases m <;> decide

/-- `G = k * ppb` in every mode (R19). -/
theorem groupSize_eq (m : Mode) : m.groupSize = m.k * m.ppb := by cases m <;> rfl

theorem groupSize_ge (m : Mode) : 8 ≤ m.groupSize := by cases m <;> decide

theorem chans_length (m : Mode) : m.chans.length = m.k := rfl

@[simp] theorem ofCode_code (m : Mode) : Mode.ofCode m.code = some m := by cases m <;> decide

theorem ofCode_zero : Mode.ofCode 0b000#3 = none := by decide

/-- The pixel of a slot of group `i` lies in the group's `ppb` pixels (R31, R61). -/
theorem slot_pixel_bounds (m : Mode) (i j : Nat) (hj : j < m.groupSize) :
    m.ppb * i ≤ (slot m i j).pixel ∧ (slot m i j).pixel < m.ppb * (i + 1) := by
  have h : j / m.k < m.ppb := Nat.div_lt_of_lt_mul (by rw [← groupSize_eq]; exact hj)
  rw [Nat.mul_succ]
  exact ⟨Nat.le_add_right _ _, Nat.add_lt_add_left h _⟩

theorem mem_groupOnes (m : Mode) (i : Nat) (byte : Byte) (a : CellAddr) :
    a ∈ groupOnes m i byte ↔ ∃ j, j ≤ 7 ∧ byte.getLsbD (7 - j) = true ∧ a = slot m i j := by
  simp only [groupOnes, List.mem_map, List.mem_filter, List.mem_range]
  constructor
  · rintro ⟨j, ⟨hj, hb⟩, rfl⟩
    exact ⟨j, by omega, hb, rfl⟩
  · rintro ⟨j, hj, hb, rfl⟩
    exact ⟨j, ⟨by omega, hb⟩, rfl⟩

theorem mem_onesFrom (m : Mode) (message : List Byte) (i : Nat) (a : CellAddr) :
    a ∈ onesFrom m i message ↔ ∃ (d : Nat) (byte : Byte) (j : Nat),
      message[d]? = some byte ∧ j ≤ 7 ∧ byte.getLsbD (7 - j) = true ∧ a = slot m (i + d) j := by
  induction message generalizing i with
  | nil => simp [onesFrom]
  | cons x rest ih =>
    simp only [onesFrom, List.mem_append, mem_groupOnes, ih]
    constructor
    · rintro (⟨j, hj, hb, rfl⟩ | ⟨d, byte, j, hd, hj, hb, rfl⟩)
      · exact ⟨0, x, j, rfl, hj, hb, rfl⟩
      · exact ⟨d + 1, byte, j, by simpa using hd, hj, hb, by rw [show i + 1 + d = i + (d + 1) by omega]⟩
    · rintro ⟨d, byte, j, hd, hj, hb, rfl⟩
      cases d with
      | zero => simp at hd; subst hd; exact .inl ⟨j, hj, hb, rfl⟩
      | succ d =>
        exact .inr ⟨d, byte, j, by simpa using hd, hj, hb, by rw [show i + 1 + d = i + (d + 1) by omega]⟩

/-- The cells ENCODE sets to 1 are those that carry a 1 bit of the message (R67, R79). -/
theorem mem_messageOnes (m : Mode) (message : List Byte) (a : CellAddr) :
    a ∈ messageOnes m message ↔ carriesOne m message a := by
  simp only [messageOnes, mem_onesFrom, carriesOne, Nat.zero_add]

/-- The cells ENCODE sets lie in the message region, pixels `0 .. L * ppb - 1` (R34). -/
theorem carriesOne_pixel_lt (m : Mode) (message : List Byte) (a : CellAddr)
    (h : carriesOne m message a) : a.pixel < message.length * m.ppb := by
  obtain ⟨i, byte, j, hi, hj, -, rfl⟩ := h
  have hg := groupSize_ge m
  have hb := (slot_pixel_bounds m i j (by omega)).2
  have hi' : i < message.length := by
    rw [List.getElem?_eq_some_iff] at hi; exact hi.1
  have : m.ppb * (i + 1) ≤ m.ppb * message.length := Nat.mul_le_mul_left _ hi'
  rw [Nat.mul_comm message.length]
  omega

/-- A message that fits leaves its message region inside the buffer (R35). -/
theorem region_le_of_fits (n : Nat) (m : Mode) (message : List Byte)
    (h : overCapacity n m message = false) : message.length * m.ppb ≤ n := by
  simp only [overCapacity, capacity, decide_eq_false_iff_not, not_lt, gt_iff_lt] at h
  have h1 : (message.length + 1) * m.groupSize ≤ n * m.k :=
    (Nat.le_div_iff_mul_le (by have := groupSize_ge m; omega)).mp h
  rw [groupSize_eq, ← Nat.mul_assoc, Nat.mul_right_comm] at h1
  have h2 : (message.length + 1) * m.ppb ≤ n := Nat.le_of_mul_le_mul_right h1 (k_pos m)
  have h3 : message.length * m.ppb ≤ (message.length + 1) * m.ppb :=
    Nat.mul_le_mul_right _ (by omega)
  omega

theorem messageOnes_pixel_lt (n : Nat) (m : Mode) (message : List Byte)
    (h : overCapacity n m message = false) : ∀ a ∈ messageOnes m message, a.pixel < n := by
  intro a ha
  have h1 := carriesOne_pixel_lt m message a ((mem_messageOnes m message a).mp ha)
  have h2 := region_le_of_fits n m message h
  omega

/-- NORMALIZE walks exactly the cells of the buffer (R35, R63). -/
theorem mem_bufferCells (n : Nat) (a : CellAddr) : a ∈ bufferCells n ↔ a.pixel < n := by
  obtain ⟨p, c⟩ := a
  simp only [bufferCells, Channel.all, List.mem_flatMap, List.mem_range, List.map_cons, List.map_nil,
    List.mem_cons, List.not_mem_nil, or_false, CellAddr.mk.injEq]
  constructor
  · rintro ⟨q, hq, h⟩
    rcases h with h | h | h <;> omega
  · intro hp
    exact ⟨p, hp, by cases c <;> simp⟩

/-- DECODE reads only cells of the buffer (R35). -/
theorem streamCells_pixel_lt (m : Mode) (n : Nat) : ∀ a ∈ streamCells m n, a.pixel < n := by
  intro a ha
  simp only [streamCells, List.mem_flatMap, List.mem_range, List.mem_map] at ha
  obtain ⟨p, hp, c, -, rfl⟩ := ha
  exact hp

/-- The cells DECODE walks, entry by entry: entry `t` is `(t div k, chans[t mod k])` (R83). -/
theorem streamCells_eq (m : Mode) (n : Nat) :
    streamCells m n = (List.range (n * m.k)).map
      (fun t => { pixel := t / m.k, channel := m.chans.getD (t % m.k) .r }) := by
  induction n with
  | zero => simp [streamCells]
  | succ n ih =>
    have hk := k_pos m
    rw [streamCells, List.range_succ, List.flatMap_append, ← streamCells, ih, Nat.succ_mul,
      List.range_add, List.map_append]
    congr 1
    simp only [List.flatMap_cons, List.flatMap_nil, List.append_nil, List.map_map]
    refine List.ext_getElem (by simp [chans_length]) (fun i h1 h2 => ?_)
    have hi : i < m.k := by simpa [chans_length] using h1
    simp only [List.getElem_map, List.getElem_range, Function.comp_apply, CellAddr.mk.injEq]
    refine ⟨?_, ?_⟩
    · rw [Nat.mul_comm, Nat.mul_add_div hk, Nat.div_eq_of_lt hi, Nat.add_zero]
    · rw [Nat.mul_comm, Nat.mul_add_mod, Nat.mod_eq_of_lt hi,
        List.getD_eq_getElem _ _ (by simpa [chans_length] using hi)]

/-- The bits of the cells DECODE walks are the flat bit stream (R83). -/
theorem streamCells_bits (s : State) (m : Mode) :
    (streamCells m s.n).map (fun a => lsb (s.cell a)) = s.stream m := by
  rw [streamCells_eq, List.map_map]; rfl

theorem stream_length (s : State) (m : Mode) : (s.stream m).length = s.n * m.k := by
  simp [State.stream]

theorem badByte_eq_false (x : Byte) : badByte x = false ↔ 1 ≤ x.toNat ∧ x.toNat ≤ 127 := by
  revert x; decide

/-- The messages ENCODE does not reject for a byte are the valid ones (R18, R71). -/
theorem badMessage_eq_false (message : List Byte) :
    badMessage message = false ↔ validMessage message := by
  simp only [badMessage, validMessage, List.any_eq_false, Bool.not_eq_true, badByte_eq_false]

/-- ENCODE raises nothing exactly when neither condition holds, whatever `ERR_ORDER` is (R67). -/
theorem encodeError_eq_none (order : ErrOrder) (bad tooLong : Bool) :
    encodeError order bad tooLong = none ↔ bad = false ∧ tooLong = false := by
  cases order <;> cases bad <;> cases tooLong <;> simp [encodeError]

end Sys2Proof.Machine
end

