-- ==== Sys2Proof/Laws/Exec.lean ====
section
/-! SUPPORT. What each meaning and a step can do, said once: later proofs cite these and unfold neither a meaning nor `step`. -/
namespace Sys2Proof.Machine

/-- NORMALIZE's walk over the buffer completes (R63). -/
theorem normalize_walk (s : State) :
    ∃ mem, s.modifyCells clearLsb (bufferCells s.n) = .ok { s with mem := mem } :=
  modifyCells_completes clearLsb _ s (fun a ha => (mem_bufferCells s.n a).mp ha)

/-- ENCODE's walk over a message that fits completes (R35, R67). -/
theorem encode_walk (s : State) (m : Mode) (message : List Byte)
    (h : overCapacity s.n m message = false) :
    ∃ mem, s.modifyCells setLsb (messageOnes m message) = .ok { s with mem := mem } :=
  modifyCells_completes setLsb _ s (messageOnes_pixel_lt s.n m message h)

/-- What NORMALIZE leaves, from a canonical memory (R63). -/
theorem execNormalize_cases (s t : State) (hwf : Memory.wf s.mem) (h : execNormalize s = .next t) :
    t = { s with mem := t.mem, returned := s.returned ++ [{ status := .ok, result := none }] }
      ∧ Memory.wf t.mem
      ∧ ((∀ x ∈ s.mem, x.1 < 3 * s.n) → ∀ x ∈ t.mem, x.1 < 3 * s.n)
      ∧ ∀ a, t.cell a = if a.pixel < s.n then clearLsb (s.cell a) else s.cell a := by
  obtain ⟨mem, hm⟩ := normalize_walk s
  simp only [execNormalize, hm, complete_eq, Host.Outcome.next.injEq] at h
  subst h
  obtain ⟨-, h2, h3, h4⟩ := modifyCells_spec clearLsb clearLsb_idem _ s _ hwf
    (fun a ha => (mem_bufferCells s.n a).mp ha) hm
  refine ⟨rfl, h2, h3, fun a => ?_⟩
  rw [respond_cell, h4 a]
  simp only [mem_bufferCells]

/-- What ENCODE can do: raise one of its errors and leave everything else as it was, or complete with its cells set
(R67, R79, R98). -/
theorem execEncode_cases (code : ModeCode) (message : List Byte) (s t : State)
    (h : execEncode code message s = .next t) :
    (∃ e, t = s.respond { status := .error e, result := none }) ∨
    ∃ m, Mode.ofCode code = some m ∧ badMessage message = false
      ∧ overCapacity s.n m message = false
      ∧ t = { s with mem := t.mem, returned := s.returned ++
          [{ status := .ok, result := some (.pixels (consumed s.cfg.consumedCount m message)) }] }
      ∧ (Memory.wf s.mem → Memory.wf t.mem
          ∧ ((∀ x ∈ s.mem, x.1 < 3 * s.n) → ∀ x ∈ t.mem, x.1 < 3 * s.n)
          ∧ ∀ a, t.cell a = if a ∈ messageOnes m message then setLsb (s.cell a) else s.cell a) := by
  unfold execEncode at h
  split at h
  · simp only [raise_eq, Host.Outcome.next.injEq] at h
    exact .inl ⟨_, h.symm⟩
  · rename_i m hm
    split at h
    · simp only [raise_eq, Host.Outcome.next.injEq] at h
      exact .inl ⟨_, h.symm⟩
    · rename_i herr
      obtain ⟨hbad, hfit⟩ := (encodeError_eq_none _ _ _).mp herr
      obtain ⟨mem, hw⟩ := encode_walk s m message hfit
      simp only [hw, complete_eq, Host.Outcome.next.injEq] at h
      subst h
      refine .inr ⟨m, hm, hbad, hfit, rfl, fun hwf => ?_⟩
      obtain ⟨-, h2, h3, h4⟩ := modifyCells_spec setLsb setLsb_idem _ s _ hwf
        (messageOnes_pixel_lt s.n m message hfit) hw
      exact ⟨h2, h3, h4⟩

/-- DECODE's bit buffer: a part of the flat bit stream that ends with it or with the first window that passes the sentinel
test (R83, R84). -/
theorem scan_stream (s : State) (m : Mode) :
    ∃ k, k ≤ (s.stream m).length
      ∧ s.scan (streamCells m s.n) [] = .ok ((s.stream m).take k)
      ∧ (∀ j, j < k → sentinel ((s.stream m).take j) = false)
      ∧ (k = (s.stream m).length ∨ sentinel ((s.stream m).take k) = true) := by
  obtain ⟨k, h1, h2, h3, h4⟩ := scan_spec s (streamCells m s.n) [] (streamCells_pixel_lt m s.n)
  have hlen : (streamCells m s.n).length = (s.stream m).length := by
    rw [← streamCells_bits, List.length_map]
  simp only [List.nil_append, List.map_take, streamCells_bits] at h2 h3 h4
  refine ⟨k, by omega, h2, fun j hj => ?_, by rw [← hlen]; exact h4.imp_right And.right⟩
  by_cases hj0 : j = 0
  · subst hj0; rfl
  · exact h3 j (by omega) hj

/-- The sentinel test on the part of a stream that ends with entry `e` is a zero window at `e` (R84). -/
theorem sentinel_take (bits : List Bool) (e : Nat) (he : e < bits.length) :
    sentinel (bits.take (e + 1)) = true ↔ zeroWindowAt bits e := by
  simp only [sentinel, zeroWindowAt, Bool.and_eq_true, decide_eq_true_eq, List.length_take,
    List.all_eq_true, Bool.not_eq_true']
  rw [show min (e + 1) bits.length = e + 1 by omega]
  constructor
  · rintro ⟨h7, hall⟩
    refine ⟨by omega, he, fun d hd => ?_⟩
    rw [List.getD_eq_getElem _ _ (by omega)]
    refine hall _ ?_
    rw [List.mem_iff_getElem]
    refine ⟨7 - d, by simp only [List.length_drop, List.length_take]; omega, ?_⟩
    rw [List.getElem_drop, List.getElem_take]
    congr 1
    omega
  · rintro ⟨h7, -, hall⟩
    refine ⟨by omega, fun b hb => ?_⟩
    rw [List.mem_iff_getElem] at hb
    obtain ⟨i, hi, rfl⟩ := hb
    simp only [List.length_drop, List.length_take] at hi
    rw [List.getElem_drop, List.getElem_take]
    have := hall (7 - i) (by omega)
    rw [List.getD_eq_getElem _ _ (by omega)] at this
    rw [← this]
    congr 1
    omega

/-- What DECODE does for a mode: it answers a response and leaves everything else as it was (R81, R89). -/
theorem execDecode_eq (code : ModeCode) (m : Mode) (s : State) (hm : Mode.ofCode code = some m) :
    ∃ bits, s.scan (streamCells m s.n) [] = .ok bits
      ∧ execDecode code s
        = .next (s.respond { status := .ok, result := some (.message (outputBytes m bits)) }) := by
  obtain ⟨k, -, hk, -⟩ := scan_stream s m
  exact ⟨_, hk, by simp only [execDecode, hm, hk, complete_eq]⟩

/-- Everything the instructions have in common: whatever an instruction does, it answers one response, changes no field but the
memory and the responses, keeps the canonical form, and lists only cells of the buffer. -/
theorem exec_cases (i : Instr) (s t : State) (h : exec i s = .next t) :
    ∃ r, t = { s with mem := t.mem, returned := s.returned ++ [r] }
      ∧ (r.status ≠ .ok → t.mem = s.mem ∧ r.result = none)
      ∧ (Memory.wf s.mem → Memory.wf t.mem
          ∧ ((∀ x ∈ s.mem, x.1 < 3 * s.n) → ∀ x ∈ t.mem, x.1 < 3 * s.n)) := by
  cases i with
  | selectMode token =>
    simp only [exec, execSelectMode, complete_eq, raise_eq] at h
    split at h <;> simp only [Host.Outcome.next.injEq] at h <;> subst h <;>
      exact ⟨_, rfl, fun _ => by simp_all, fun hwf => ⟨hwf, id⟩⟩
  | normalize =>
    obtain ⟨mem, hm⟩ := normalize_walk s
    have ht : t = { s with mem := mem, returned := s.returned ++ [{ status := .ok, result := none }] } := by
      simp only [exec, execNormalize, hm, complete_eq, Host.Outcome.next.injEq] at h
      exact h.symm
    refine ⟨{ status := .ok, result := none }, by rw [ht], fun hr => absurd rfl hr, fun hwf => ?_⟩
    obtain ⟨-, h2, h3, -⟩ := execNormalize_cases s t hwf h
    exact ⟨h2, h3⟩
  | encode code message =>
    rcases execEncode_cases code message s t h with ⟨e, rfl⟩ | ⟨m, -, -, -, h1, h2⟩
    · exact ⟨_, rfl, fun _ => ⟨rfl, rfl⟩, fun hwf => ⟨hwf, id⟩⟩
    · exact ⟨_, h1, fun hr => absurd rfl hr, fun hwf => ⟨(h2 hwf).1, (h2 hwf).2.1⟩⟩
  | decode code =>
    cases hm : Mode.ofCode code with
    | none =>
      simp only [exec, execDecode, hm, raise_eq, Host.Outcome.next.injEq] at h
      subst h
      exact ⟨_, rfl, fun _ => ⟨rfl, rfl⟩, fun hwf => ⟨hwf, id⟩⟩
    | some m =>
      obtain ⟨bits, -, hd⟩ := execDecode_eq code m s hm
      rw [exec, hd] at h
      simp only [Host.Outcome.next.injEq] at h
      subst h
      exact ⟨_, rfl, fun hr => absurd rfl hr, fun hwf => ⟨hwf, id⟩⟩

/-- What a step that answers a next state can be: idle, a command performed, an illegal word, or a move of the host between
commands. -/
theorem step_cases (s t : State) (h : step s = .next t) :
    (s.host = [] ∧ t = s) ∨
    (∃ c rest i, s.host = .command c :: rest ∧ decodeCommand c = .ok i
      ∧ exec i { s with host := rest } = .next t) ∨
    (∃ c rest e, s.host = .command c :: rest ∧ decodeCommand c = .error e
      ∧ t = ({ s with host := rest } : State).respond
          { status := .error .illegalCommand, result := none }) ∨
    (∃ pixels rest, s.host = .handOver pixels :: rest ∧ pixels.length ≤ s.cfg.nMax
      ∧ t = { s with host := rest, n := pixels.length, mem := Memory.writePixels 0 pixels [] }) ∨
    (∃ a v rest, s.host = .write a v :: rest ∧ a.pixel < s.n
      ∧ t = { s with host := rest, mem := Memory.write s.mem a.key v }) ∨
    (∃ rest, s.host = .reset :: rest ∧ t = { s with host := rest }) := by
  unfold step at h
  split at h
  · rename_i hh
    simp only [Host.Outcome.next.injEq] at h
    exact .inl ⟨hh, h.symm⟩
  · rename_i c rest hh
    split at h
    · rename_i i hd
      exact .inr (.inl ⟨c, rest, i, hh, hd, h⟩)
    · rename_i e hd
      simp only [illegalCommand, raise_eq, Host.Outcome.next.injEq] at h
      exact .inr (.inr (.inl ⟨c, rest, e, hh, hd, h.symm⟩))
  · rename_i pixels rest hh
    simp only [handOver] at h
    split at h
    · rename_i hle
      simp only [Host.Outcome.next.injEq] at h
      exact .inr (.inr (.inr (.inl ⟨pixels, rest, hh, hle, h.symm⟩)))
    · cases h
  · rename_i a v rest hh
    by_cases ha : a.pixel < s.n
    · rw [hostWrite, memWrite_eq _ _ _ (show a.pixel < ({ s with host := rest } : State).n from ha)] at h
      simp only [Host.Outcome.next.injEq] at h
      exact .inr (.inr (.inr (.inr (.inl ⟨a, v, rest, hh, ha, h.symm⟩))))
    · simp only [hostWrite, State.memWrite, if_neg ha] at h
      cases h
  · rename_i rest hh
    simp only [takeReset, Host.Outcome.next.injEq] at h
    exact .inr (.inr (.inr (.inr (.inr ⟨rest, hh, h.symm⟩))))

end Sys2Proof.Machine
end

