-- ==== Sys2Proof/Laws/PerInstr.lean ====
section
/-! SUPPORT. The statements made per instruction. Family EncodedLegal: the command an instruction encodes to is well formed, its word
passing both checks of spec/30_encoding.md R45. -/
namespace Sys2Proof.Laws.EncodedLegal

/-- The encoded command of the instruction has clear reserved bits and a mode field where one is admitted (R45). -/
def Statement (i : Instr) : Prop := (encodeInstr i).legal = true

theorem selectMode (token : List Byte) : Statement (.selectMode token) :=
  have h : (encodeInstr (.selectMode [])).legal = true := by decide
  h

theorem normalize : Statement .normalize := by unfold Statement; decide

theorem encode (mode : ModeCode) (message : List Byte) : Statement (.encode mode message) := by
  have h : ∀ m : ModeCode, (encodeInstr (.encode m [])).legal = true := by decide
  exact h mode

theorem decode (mode : ModeCode) : Statement (.decode mode) := by
  revert mode
  unfold Statement
  decide

end Sys2Proof.Laws.EncodedLegal
end

