-- ==== Sys2Proof/Laws/Stream.lean ====
section
/-! SUPPORT. The bytes of a bit stream and the bits of a message stream, each operation said once (spec/43_decode.md R85 to R88, R92). -/
namespace Sys2Proof.Machine

/-- The bits of the byte at an entry, most significant first (R86). -/
theorem byteAt_bit (bits : List Bool) (start e : Nat) (he : e ≤ 7) :
    (byteAt bits start).getLsbD (7 - e) = bits.getD (start + e) false := by
  have h : ∀ b0 b1 b2 b3 b4 b5 b6 b7 : Bool, ∀ e, e ≤ 7 →
      ((((((((0#8 + (if b0 then 1#8 else 0#8) <<< 7) + (if b1 then 1#8 else 0#8) <<< 6)
        + (if b2 then 1#8 else 0#8) <<< 5) + (if b3 then 1#8 else 0#8) <<< 4)
        + (if b4 then 1#8 else 0#8) <<< 3) + (if b5 then 1#8 else 0#8) <<< 2)
        + (if b6 then 1#8 else 0#8) <<< 1) + (if b7 then 1#8 else 0#8) <<< 0).getLsbD (7 - e)
        = [b0, b1, b2, b3, b4, b5, b6, b7].getD e false := by decide +kernel
  have hb := h (bits.getD (start + 0) false) (bits.getD (start + 1) false) (bits.getD (start + 2) false)
    (bits.getD (start + 3) false) (bits.getD (start + 4) false) (bits.getD (start + 5) false)
    (bits.getD (start + 6) false) (bits.getD (start + 7) false) e he
  rw [show (byteAt bits start).getLsbD (7 - e) = _ from hb]
  have : e = 0 ∨ e = 1 ∨ e = 2 ∨ e = 3 ∨ e = 4 ∨ e = 5 ∨ e = 6 ∨ e = 7 := by omega
  rcases this with h | h | h | h | h | h | h | h <;> subst h <;> rfl

/-- Two bytes with the same bits, most significant first, are equal. -/
theorem byte_ext (x y : Byte) (h : ∀ e, e ≤ 7 → x.getLsbD (7 - e) = y.getLsbD (7 - e)) : x = y := by
  refine BitVec.eq_of_getLsbD_eq (fun i hi => ?_)
  have := h (7 - i) (by omega)
  rwa [show 7 - (7 - i) = i by omega] at this

/-- The byte at an entry is zero exactly when its eight entries are. -/
theorem byteAt_eq_zero (bits : List Bool) (start : Nat) :
    byteAt bits start = 0#8 ↔ ∀ e, e ≤ 7 → bits.getD (start + e) false = false := by
  constructor
  · intro h e he
    rw [← byteAt_bit bits start e he, h]
    simp
  · intro h
    refine byte_ext _ _ (fun e he => ?_)
    rw [byteAt_bit bits start e he, h e he]
    simp

theorem groupBytes_length (m : Mode) (bits : List Bool) :
    (groupBytes m bits).length = bits.length / m.groupSize := by simp [groupBytes]

/-- The entry at which `takeWhile` stops fails its test. -/
theorem takeWhile_stop (p : Byte → Bool) (l : List Byte) (x : Byte)
    (h : l[(l.takeWhile p).length]? = some x) : p x = false := by
  induction l with
  | nil => simp at h
  | cons y rest ih =>
    by_cases hy : p y = true
    · rw [List.takeWhile_cons_of_pos hy, List.length_cons, List.getElem?_cons_succ] at h
      exact ih h
    · rw [List.takeWhile_cons_of_neg hy] at h
      simp only [List.length_nil, List.getElem?_cons_zero, Option.some.injEq] at h
      rw [← h]
      simpa using hy

/-- Everything DECODE's output is: no more bytes than whole groups, byte `g` the non-zero byte of group `g`, and the
end of the whole groups or a zero byte after it (R85 to R88). -/
theorem outputBytes_spec (m : Mode) (bits : List Bool) :
    (outputBytes m bits).length ≤ bits.length / m.groupSize
      ∧ (∀ g byte, (outputBytes m bits)[g]? = some byte →
          byte = byteAt bits (m.groupSize * g) ∧ byte ≠ 0#8)
      ∧ ((outputBytes m bits).length = bits.length / m.groupSize
          ∨ byteAt bits (m.groupSize * (outputBytes m bits).length) = 0#8) := by
  have hpre : outputBytes m bits <+: groupBytes m bits := List.takeWhile_prefix _
  have hlen := hpre.length_le
  rw [groupBytes_length] at hlen
  refine ⟨hlen, fun g byte hg => ?_, ?_⟩
  · have hlt : g < (outputBytes m bits).length := by
      rw [List.getElem?_eq_some_iff] at hg; exact hg.1
    have hmem : byte ∈ outputBytes m bits := List.mem_of_getElem? hg
    have hget : (groupBytes m bits)[g]? = some byte := by
      rw [← hg]
      obtain ⟨rest, hrest⟩ := hpre
      rw [← hrest, List.getElem?_append_left hlt]
    refine ⟨?_, by simpa using List.mem_takeWhile_imp hmem⟩
    simp only [groupBytes, List.getElem?_map, List.getElem?_range (by omega : g < bits.length / m.groupSize),
      Option.map_some, Option.some.injEq] at hget
    exact hget.symm
  · by_cases h : (outputBytes m bits).length = bits.length / m.groupSize
    · exact .inl h
    · right
      have hget : (groupBytes m bits)[(outputBytes m bits).length]?
          = some (byteAt bits (m.groupSize * (outputBytes m bits).length)) := by
        rw [groupBytes, List.getElem?_map, List.getElem?_range (by omega)]
        rfl
      simpa using takeWhile_stop _ _ _ hget

/-- The message stream has `G` entries for each byte (R92). -/
theorem messageStream_length (m : Mode) (message : List Byte) :
    (messageStream m message).length = m.groupSize * message.length := by
  induction message with
  | nil => rfl
  | cons x rest ih =>
    simp only [messageStream, List.flatMap_cons, List.length_append] at ih ⊢
    rw [ih, List.length_cons, Nat.mul_succ]
    cases m <;> simp [byteBits, Mode.desc, Mode.groupSize] <;> omega

/-- Entry `G * i + j` of the message stream: bit `7 - j` of byte `i`, or the pad bit 0 (R92). -/
theorem messageStream_getElem (m : Mode) (message : List Byte) (i j : Nat) (byte : Byte)
    (hi : message[i]? = some byte) (hj : j < m.groupSize) :
    (messageStream m message)[m.groupSize * i + j]?
      = some (decide (j ≤ 7) && byte.getLsbD (7 - j)) := by
  induction message generalizing i with
  | nil => simp at hi
  | cons x rest ih =>
    have hlen : (byteBits x ++ (if m.desc.pad then [false] else [])).length = m.groupSize := by
      cases m <;> simp [byteBits, Mode.desc, Mode.groupSize]
    rw [messageStream, List.flatMap_cons, ← messageStream]
    cases i with
    | zero =>
      simp only [List.getElem?_cons_zero, Option.some.injEq] at hi
      subst hi
      rw [Nat.mul_zero, Nat.zero_add, List.getElem?_append_left (by omega)]
      by_cases h7 : j ≤ 7
      · rw [List.getElem?_append_left (by simp [byteBits]; omega)]
        simp [byteBits, h7, List.getElem?_range (by omega : j < 8)]
      · rw [List.getElem?_append_right (by simp [byteBits]; omega)]
        have hp : m.desc.pad = true := by
          cases m <;> first | rfl | (simp [Mode.groupSize, Mode.desc] at hj; omega)
        have h8 : j = 8 := by
          simp only [Mode.groupSize, hp, if_true] at hj; omega
        subst h8
        simp [byteBits, hp]
    | succ i =>
      have hidx : m.groupSize * (i + 1) + j
          = (byteBits x ++ (if m.desc.pad then [false] else [])).length + (m.groupSize * i + j) := by
        rw [hlen, Nat.mul_succ]; omega
      rw [hidx, List.getElem?_append_right (by omega), Nat.add_sub_cancel_left]
      exact ih i (by simpa using hi)

end Sys2Proof.Machine
end

