-- ==== Sys2Proof/Laws/Token.lean ====
section
/-! SUPPORT. SELECT_MODE's operations on a folded token, each said once: which tokens are valid, and what the mask of the letters is
(spec/40_mode_select.md R55, R56). -/
namespace Sys2Proof.Machine

theorem letter_injective (c d : Channel) (h : letter c = letter d) : c = d := by
  revert h; cases c <;> cases d <;> decide

/-- A byte is a folded letter exactly when it is some channel's letter. -/
theorem isLetter_iff (x : Byte) :
    (x == 0x72#8 || x == 0x67#8 || x == 0x62#8) = true ↔ ∃ c, x = letter c := by
  simp only [Bool.or_eq_true, beq_iff_eq]
  constructor
  · rintro ((rfl | rfl) | rfl)
    · exact ⟨.r, rfl⟩
    · exact ⟨.g, rfl⟩
    · exact ⟨.b, rfl⟩
  · rintro ⟨c, rfl⟩
    cases c <;> decide

/-- A list of distinct channels has at most three. -/
theorem channels_length_le (letters : List Channel) (h : letters.Nodup) : letters.length ≤ 3 := by
  have hm : (letters.map Channel.num).Nodup := h.map (fun c d => channel_num_injective c d)
  have hsub : letters.map Channel.num ⊆ List.range 3 := by
    intro x hx
    obtain ⟨c, -, rfl⟩ := List.mem_map.mp hx
    exact List.mem_range.mpr (channel_num_lt c)
  simpa using (hm.subperm hsub).length_le

/-- The valid folded tokens are the letter-permutations of a non-empty set of channels (R55). -/
theorem validToken_iff (folded : List Byte) :
    validToken folded = true ↔
      ∃ letters : List Channel, letters ≠ [] ∧ letters.Nodup ∧ folded = letters.map letter := by
  simp only [validToken, Bool.and_eq_true, decide_eq_true_eq, List.all_eq_true, isLetter_iff]
  constructor
  · rintro ⟨⟨⟨h1, -⟩, hall⟩, hnd⟩
    have hex : ∃ letters : List Channel, folded = letters.map letter := by
      clear h1 hnd
      induction folded with
      | nil => exact ⟨[], rfl⟩
      | cons x rest ih =>
        obtain ⟨c, hc⟩ := hall x (by simp)
        obtain ⟨letters, hl⟩ := ih (fun y hy => hall y (by simp [hy]))
        exact ⟨c :: letters, by rw [List.map_cons, hc, hl]⟩
    obtain ⟨letters, rfl⟩ := hex
    refine ⟨letters, ?_, List.Nodup.of_map letter hnd, rfl⟩
    rintro rfl
    simp at h1
  · rintro ⟨letters, hne, hnd, rfl⟩
    refine ⟨⟨⟨?_, by simpa using channels_length_le letters hnd⟩, fun x hx => ?_⟩,
      hnd.map (fun c d => letter_injective c d)⟩
    · simpa using Nat.one_le_iff_ne_zero.mpr (fun h => hne (List.length_eq_zero_iff.mp h))
    · obtain ⟨c, -, rfl⟩ := List.mem_map.mp hx
      exact ⟨c, rfl⟩

/-- The bits of the mask are the channels spelled (R56). -/
theorem tokenMask_bit (letters : List Channel) (c : Channel) :
    (tokenMask (letters.map letter)).getLsbD c.num = decide (c ∈ letters) := by
  induction letters with
  | nil => cases c <;> decide
  | cons d rest ih =>
    have hd : (letterMask (letter d)).getLsbD c.num = decide (c = d) := by
      cases c <;> cases d <;> decide
    simp only [List.map_cons, tokenMask, BitVec.getLsbD_or, ih, hd, List.mem_cons, Bool.decide_or]

end Sys2Proof.Machine
end

