-- ==== Sys2Proof/Tests/Slice0.lean ====
section
/-! SUPPORT. The model's own tests: well-formedness smoke tests, words decoded from the encoding tables, at most two small vectors per
instruction (expected values from spec/95_test_vectors.md and the rules named), and for each statement with hypotheses a
concrete state and operands that meet them together. -/
namespace Sys2Proof.Machine.Tests

/-! ## Helpers -/

/-- A buffer of `n` pixels whose listed cells are `mem`, the others 0, with the reset parameters. -/
def buffer (n : Nat) (mem : Memory) : State := { State.reset with n := n, mem := mem }

/-- "black `n`" of spec/95_test_vectors.md. -/
def black (n : Nat) : State := buffer n []

/-- The state with one move of the host to come. -/
def withMove (s : State) (move : HostMove) : State := { s with host := [move] }

/-- The next state of an outcome, the reset state where there is none. -/
def after (o : Host.Outcome State Fault Refusal) : State :=
  match o with
  | .next t => t
  | .fault _ => State.reset
  | .refused _ => State.reset

/-- Whether an outcome is a next state. -/
def isNext (o : Host.Outcome State Fault Refusal) : Bool :=
  match o with
  | .next _ => true
  | .fault _ => false
  | .refused _ => false

theorem eq_next_after (o : Host.Outcome State Fault Refusal) (h : isNext o = true) :
    o = .next (after o) := by
  cases o <;> first | rfl | cases h

theorem black_normalized (n : Nat) : (black n).normalized := fun a _ => by
  show lsb (Memory.read [] a.key) = false
  rw [Memory.read]
  decide

theorem black_wf (n : Nat) : Memory.wf (black n).mem := ⟨List.Pairwise.nil, by simp [black, buffer]⟩

/-- The tokens of up to 3 bytes over the six letters r, g, b, R, G, B. -/
def letterTokens : List (List Byte) :=
  let letters : List Byte := [0x72#8, 0x67#8, 0x62#8, 0x52#8, 0x47#8, 0x42#8]
  let longer (ts : List (List Byte)) := ts.flatMap (fun t => letters.map (fun x => x :: t))
  let one := longer [[]]
  let two := longer one
  [[]] ++ one ++ two ++ longer two

/-! ## Well-formedness: an ill-formed term for each check (R45) -/

theorem test_illformed_reserved_bits : Command.rsvClear ⟨0x20#8, []⟩ = false := by decide
theorem test_illformed_mode_on_selectMode : Command.modeClear ⟨0x04#8, []⟩ = false := by decide
theorem test_illformed_mode_on_normalize : Command.modeClear ⟨0x1D#8, []⟩ = false := by decide
theorem test_illformed_illegal : Command.legal ⟨0xFF#8, []⟩ = false ∧ Command.legal ⟨0x05#8, []⟩ = false := by
  decide
theorem test_wellformed_legal : Command.legal ⟨0x02#8, []⟩ = true ∧ Command.legal ⟨0x1F#8, []⟩ = true := by
  decide

/-! ## Decoding: each constructor by a word written out from R41, R42 and R44 -/

/-- rsv 000, mode 000, op 00. -/
theorem test_decode_selectMode :
    decodeCommand ⟨0b00000000#8, [0x72#8]⟩ = .ok (.selectMode [0x72#8]) := by rfl
/-- rsv 000, mode 000, op 01; the payload is ignored (R46). -/
theorem test_decode_normalize : decodeCommand ⟨0b00000001#8, [0x72#8]⟩ = .ok .normalize := by rfl
/-- rsv 000, mode 111, op 10: `ENCODE RGB, "A"` is the word 0x1E with payload 0x41 (R51). -/
theorem test_decode_encode :
    decodeCommand ⟨0b00011110#8, [0x41#8]⟩ = .ok (.encode Mode.rgb.code [0x41#8]) := by rfl
/-- rsv 000, mode 011, op 11: DECODE RG (R49). -/
theorem test_decode_decode : decodeCommand ⟨0b00001111#8, []⟩ = .ok (.decode Mode.rg.code) := by rfl
/-- The three ways a word is illegal (R45). -/
theorem test_decode_illegal :
    decodeCommand ⟨0x3E#8, []⟩ = .error .reservedBits
      ∧ decodeCommand ⟨0x04#8, []⟩ = .error .modeOnSelectMode
      ∧ decodeCommand ⟨0x1D#8, []⟩ = .error .modeOnNormalize := ⟨rfl, rfl, rfl⟩

/-! ## SELECT_MODE -/

/-- "RgB" is valid and selects RGB (95_test_vectors.md, SELECT_MODE). -/
theorem test_selectMode_mixed_case :
    (after (exec (.selectMode [0x52#8, 0x67#8, 0x42#8]) (black 1))).returned
      = [⟨.ok, some (.mode 0b111#3)⟩] := by decide
/-- "With case folding, 78 byte spellings are valid" (R56). -/
theorem test_selectMode_spellings :
    (letterTokens.filter (fun t => validToken (foldToken t))).length = 78 := by decide +kernel

/-! ## NORMALIZE -/

/-- V-SRC-NORM: (0xFF, 0x01, 0x80) becomes (0xFE, 0x00, 0x80); the cell that becomes 0 is no longer listed. -/
theorem test_normalize_source :
    (after (exec .normalize (buffer 1 [(0, 0xFF#8), (1, 0x01#8), (2, 0x80#8)]))).mem
      = [(0, 0xFE#8), (2, 0x80#8)] := by decide
/-- N = 0: no access, status OK. -/
theorem test_normalize_empty :
    (after (exec .normalize (black 0))).returned = [⟨.ok, none⟩] := by decide

/-! ## ENCODE -/

/-- V-SRC-B8: ENCODE RG, "!" on black 8 sets R of pixel 1 and G of pixel 3 and returns 4. -/
theorem test_encode_source :
    (after (exec (.encode Mode.rg.code [0x21#8]) (black 8))).mem = [(3, 0x01#8), (10, 0x01#8)]
      ∧ (after (exec (.encode Mode.rg.code [0x21#8]) (black 8))).returned
        = [⟨.ok, some (.pixels 4)⟩] := by decide
/-- ENCODE RGB, "A\x80" on black 8 under `CAPACITY_FIRST` (95_test_vectors.md, ENCODE corner cases). -/
theorem test_encode_capacity_first :
    (after (exec (.encode Mode.rgb.code [0x41#8, 0x80#8])
      { black 8 with cfg := { Config.default with errOrder := .capacityFirst } })).returned
      = [⟨.error .encodingCapacityExceeded, none⟩] := by decide

/-! ## DECODE -/

/-- V-DEC-6: a premature sentinel cuts "@A" to "@" in RGB mode. -/
theorem test_decode_premature :
    (after (exec (.decode Mode.rgb.code)
      (buffer 9 [(1, 0x01#8), (10, 0x01#8), (16, 0x01#8)]))).returned
      = [⟨.ok, some (.message [0x40#8])⟩] := by decide
/-- V-SRC-MIS: the V-SRC-A buffer under mode RG decodes as "D". -/
theorem test_decode_mismatch :
    (after (exec (.decode Mode.rg.code) (buffer 8 [(1, 0x01#8), (7, 0x01#8)]))).returned
      = [⟨.ok, some (.message [0x44#8])⟩] := by decide

/-! ## A table word is fetched and run from reset -/

/-- The word is taken from the interface, and the response is ENCODE's for mode code 000 (R68). -/
theorem test_fetch_word :
    (after (step (State.reset.withFetchWord 8 0x02))).returned
      = [⟨.error .invalidChannelFlags, none⟩] := by decide

/-! ## Witnesses: states and operands that meet the hypotheses of each statement -/

theorem witness_CommandMapIsTotal :
    (0x00#8 &&& 0xFF#8 = 0x00#8) ∧ (0x01#8 &&& 0xFF#8 = 0x01#8) ∧ (0x1E#8 &&& 0xE3#8 = 0x02#8)
      ∧ (0x1F#8 &&& 0xE3#8 = 0x03#8)
      ∧ (0x04#8 &&& 0xFF#8 ≠ 0x00#8 ∧ 0x04#8 &&& 0xFF#8 ≠ 0x01#8 ∧ 0x04#8 &&& 0xE3#8 ≠ 0x02#8
        ∧ 0x04#8 &&& 0xE3#8 ≠ 0x03#8) := by decide

theorem witness_EncodedInstructionsDecodeBack :
    ∃ c i, decodeCommand c = .ok i := ⟨⟨0x03#8, [0x01#8]⟩, .decode 0b000#3, rfl⟩

theorem witness_ModeCodesNameTheModes :
    ∃ code m, Mode.ofCode code = some m := ⟨0b111#3, .rgb, by decide⟩

theorem witness_ModeCodeIsAChannelMask : ∃ code : ModeCode, code ≠ 0b000#3 := ⟨0b101#3, by decide⟩

theorem witness_DescriptorTable :
    (Mode.b, 0b100#3, [Channel.b], 1, false, 8, 8) ∈
      [(Mode.r, 0b001#3, [Channel.r], 1, false, 8, 8), (.b, 0b100#3, [.b], 1, false, 8, 8)] := by decide

theorem witness_CapacityCountsByteGroups :
    (∃ m : Mode, m = .rgb) ∧ (∃ m : Mode, m = .rg ∨ m = .rb ∨ m = .gb) ∧
      (∃ m : Mode, m = .r ∨ m = .g ∨ m = .b) :=
  ⟨⟨.rgb, rfl⟩, ⟨.gb, by decide⟩, ⟨.b, by decide⟩⟩

theorem witness_SlotLayoutOfEveryFamily :
    Mode.gb ∈ [Mode.rg, .rb, .gb] ∧ Mode.b ∈ [Mode.r, .g, .b] := by decide

theorem witness_DistinctSlotsAreDistinctCells :
    ∃ (m : Mode) (i j i' j' : Nat), j < m.groupSize ∧ j' < m.groupSize ∧ slot m i j = slot m i' j' :=
  ⟨.rgb, 1, 8, 1, 8, by decide, by decide, rfl⟩

theorem witness_StreamEntriesAreSlots :
    ∃ (s : State) (m : Mode) (i j : Nat), j < m.groupSize ∧ m.groupSize * i + j < s.n * m.k :=
  ⟨black 6, .rgb, 1, 8, by decide, by decide⟩

theorem witness_CellAccesses :
    ∃ (s : State) (a : CellAddr), Memory.wf s.mem ∧ a.pixel < s.n :=
  ⟨buffer 2 [(5, 0x01#8)], ⟨1, .b⟩, by decide, by decide⟩

theorem witness_StepPerformsTheIssuedCommand :
    ∃ (s : State) (c : Command) (rest : List HostMove) (i : Instr),
      s.host = .command c :: rest ∧ decodeCommand c = .ok i :=
  ⟨withMove (black 8) (.command ⟨0x1E#8, [0x41#8]⟩), _, _, .encode 0b111#3 [0x41#8], rfl, rfl⟩

theorem witness_IllegalWordReturnsIllegalCommand :
    (∃ (s : State) (c : Command) (rest : List HostMove), s.host = .command c :: rest ∧
      c.word.extractLsb' 5 3 ≠ 0#3) ∧
    (∃ (s : State) (c : Command) (rest : List HostMove), s.host = .command c :: rest ∧
      (c.word.extractLsb' 0 2 = 0b00#2 ∨ c.word.extractLsb' 0 2 = 0b01#2) ∧
      c.word.extractLsb' 2 3 ≠ 0#3) ∧
    (∃ c : Command, c.word.extractLsb' 5 3 = 0#3 ∧
      ((c.word.extractLsb' 0 2 = 0b00#2 ∨ c.word.extractLsb' 0 2 = 0b01#2) →
        c.word.extractLsb' 2 3 = 0#3)) :=
  ⟨⟨withMove (black 8) (.command ⟨0x20#8, []⟩), _, _, rfl, by decide⟩,
    ⟨withMove (black 8) (.command ⟨0x1D#8, []⟩), _, _, rfl, by decide, by decide⟩,
    ⟨⟨0x01#8, []⟩, by decide, by decide⟩⟩

theorem witness_StrayPayloadIsIgnored :
    (∃ (s t : State) (w : Byte) (payload payload' : List Byte) (rest : List HostMove),
      w = 0x01#8 ∧ s.host = .command ⟨w, payload⟩ :: rest ∧
      t = { s with host := .command ⟨w, payload'⟩ :: rest }) ∧
    (∃ (s t : State) (w : Byte) (payload payload' : List Byte) (rest : List HostMove),
      w &&& 0xE3#8 = 0x03#8 ∧ s.host = .command ⟨w, payload⟩ :: rest ∧
      t = { s with host := .command ⟨w, payload'⟩ :: rest }) :=
  ⟨⟨withMove (black 1) (.command ⟨0x01#8, [0x41#8]⟩), _, 0x01#8, [0x41#8], [], [], rfl, rfl, rfl⟩,
    ⟨withMove (black 1) (.command ⟨0x1F#8, [0x41#8]⟩), _, 0x1F#8, [0x41#8], [], [], by decide, rfl, rfl⟩⟩

theorem witness_IdleAndResetChangeNothing :
    (∃ s : State, s.host = []) ∧ (∃ (s : State) (rest : List HostMove), s.host = .reset :: rest) :=
  ⟨⟨black 1, rfl⟩, ⟨withMove (black 1) .reset, _, rfl⟩⟩

theorem witness_HandOverInstallsTheBuffer :
    (∃ (s : State) (pixels : List Pixel) (rest : List HostMove),
      s.host = .handOver pixels :: rest ∧ pixels.length ≤ s.cfg.nMax) ∧
    (∃ (s : State) (pixels : List Pixel) (rest : List HostMove),
      s.host = .handOver pixels :: rest ∧ s.cfg.nMax < pixels.length) :=
  ⟨⟨{ withMove (black 1) (.handOver [⟨0xFF#8, 0x01#8, 0x80#8⟩])
      with cfg := { Config.default with nMax := 1 } }, _, _, rfl, by decide⟩,
    ⟨{ withMove (black 0) (.handOver [⟨0xFF#8, 0x01#8, 0x80#8⟩])
      with cfg := { Config.default with nMax := 0 } }, _, _, rfl, by decide⟩⟩

theorem witness_HostWriteSetsOneCell :
    (∃ (s : State) (a : CellAddr) (v : Byte) (rest : List HostMove), Memory.wf s.mem ∧
      s.host = .write a v :: rest ∧ a.pixel < s.n) ∧
    (∃ (s : State) (a : CellAddr) (v : Byte) (rest : List HostMove), Memory.wf s.mem ∧
      s.host = .write a v :: rest ∧ s.n ≤ a.pixel) :=
  ⟨⟨withMove (black 2) (.write ⟨1, .b⟩ 0x05#8), _, _, _, by decide, rfl, by decide⟩,
    ⟨withMove (black 2) (.write ⟨2, .r⟩ 0x05#8), _, _, _, by decide, rfl, by decide⟩⟩

theorem witness_StepKeepsInv : ∃ s t : State, s.Inv ∧ step s = .next t :=
  ⟨withMove (buffer 9 [(0, 0xFF#8)]) (.command ⟨0x1E#8, [0x48#8, 0x69#8]⟩), _, by decide,
    eq_next_after _ (by decide)⟩

theorem witness_CommandReturnsOneResponse :
    (∃ (i : Instr) (s t : State), exec i s = .next t ∧
      t.returned = s.returned ++ [⟨.ok, some (.message [])⟩]) ∧
    (∃ (i : Instr) (s t : State), exec i s = .next t ∧
      t.returned = s.returned ++ [⟨.error .encodingCapacityExceeded, none⟩]) :=
  ⟨⟨.decode 0b111#3, black 0, _, eq_next_after _ (by decide), by decide⟩,
    ⟨.encode 0b001#3 [], black 0, _, eq_next_after _ (by decide), by decide⟩⟩

theorem witness_ErrorsHaveTheirCauses :
    (∃ (i : Instr) (s t : State), exec i s = .next t ∧
      t.returned = s.returned ++ [⟨.error .invalidChannelFlags, none⟩]) ∧
    (∃ (i : Instr) (s t : State), exec i s = .next t ∧
      t.returned = s.returned ++ [⟨.error .encodingCapacityExceeded, none⟩]) ∧
    (∃ (i : Instr) (s t : State), exec i s = .next t ∧
      t.returned = s.returned ++ [⟨.error .undefinedByteEncoding, none⟩]) :=
  ⟨⟨.selectMode [0x72#8, 0x72#8], black 1, _, eq_next_after _ (by decide), by decide⟩,
    ⟨.encode 0b001#3 [0x41#8], black 8, _, eq_next_after _ (by decide), by decide⟩,
    ⟨.encode 0b111#3 [0x80#8], black 24, _, eq_next_after _ (by decide), by decide⟩⟩

theorem witness_FailedCommandChangesNothing :
    ∃ (s t : State) (c : Command) (rest : List HostMove) (r : Response),
      s.host = .command c :: rest ∧ step s = .next t ∧ t.returned = s.returned ++ [r] ∧ r.status ≠ .ok :=
  ⟨withMove (black 8) (.command ⟨0x1E#8, [0x41#8, 0x42#8]⟩), _, _, _,
    ⟨.error .encodingCapacityExceeded, none⟩, rfl, eq_next_after _ (by decide), by decide, by decide⟩

theorem witness_CommandsKeepNAndParameters :
    ∃ (s t : State) (c : Command) (rest : List HostMove),
      s.host = .command c :: rest ∧ step s = .next t :=
  ⟨withMove (black 8) (.command ⟨0x01#8, []⟩), _, _, _, rfl, eq_next_after _ (by decide)⟩

theorem witness_OnlyBitZeroChanges :
    ∃ (i : Instr) (s t : State), Memory.wf s.mem ∧ exec i s = .next t :=
  ⟨.normalize, buffer 1 [(0, 0xFF#8)], _, by decide, eq_next_after _ (by decide)⟩

theorem witness_CommandsDependOnNoOtherCommand :
    ∃ (i : Instr) (s s' t t' : State), s'.n = s.n ∧ s'.mem = s.mem ∧ s'.cfg = s.cfg ∧
      exec i s = .next t ∧ exec i s' = .next t' ∧ s' ≠ s :=
  ⟨.encode 0b111#3 [0x41#8], black 8, { black 8 with returned := [⟨.ok, none⟩] }, _, _, rfl, rfl, rfl,
    eq_next_after _ (by decide), eq_next_after _ (by decide), by decide⟩

theorem witness_RunOfCommandsEnds :
    ∃ (commands : List Command) (s : State), s.host = commands.map HostMove.command ∧ commands ≠ [] :=
  ⟨[⟨0x01#8, []⟩, ⟨0xFF#8, []⟩],
    { black 8 with host := [.command ⟨0x01#8, []⟩, .command ⟨0xFF#8, []⟩] }, rfl, by decide⟩

theorem witness_SelectModeAcceptsLetterPermutations :
    (∃ (token : List Byte) (letters : List Channel),
      letters ≠ [] ∧ letters.Nodup ∧ spells token letters) ∧
    (∃ token : List Byte,
      ¬ ∃ letters : List Channel, letters ≠ [] ∧ letters.Nodup ∧ spells token letters) := by
  refine ⟨⟨[0x42#8, 0x67#8, 0x52#8], [.b, .g, .r], by decide, by decide, by unfold spells; decide⟩,
    [0x2D#8, 0x78#8, 0x79#8], ?_⟩
  rintro ⟨letters, -, -, h⟩
  unfold spells at h
  cases letters with
  | nil => exact absurd h (by decide)
  | cons c rest =>
    have h0 : foldByte 0x2D#8 = letter c := (List.cons.inj h).1
    revert h0
    cases c <;> decide

theorem witness_SelectModeIgnoresCaseAndOrder :
    ∃ token token' : List Byte, (foldToken token).Perm (foldToken token') ∧ token ≠ token' :=
  ⟨[0x72#8, 0x67#8], [0x47#8, 0x52#8], by decide, by decide⟩

theorem witness_NormalizeClearsEveryBitZero : ∃ s : State, Memory.wf s.mem ∧ s.mem ≠ [] :=
  ⟨buffer 1 [(0, 0xFF#8), (1, 0x01#8)], by decide, by decide⟩

theorem witness_NormalizeLeavesTheBaseline :
    ∃ s t : State, Memory.wf s.mem ∧ exec .normalize s = .next t :=
  ⟨buffer 1 [(0, 0xFF#8), (1, 0x01#8)], _, by decide, eq_next_after _ (by decide)⟩

theorem witness_NormalizeIsIdempotent :
    ∃ s t u : State, Memory.wf s.mem ∧ exec .normalize s = .next t ∧ exec .normalize t = .next u :=
  ⟨buffer 1 [(0, 0xFF#8), (1, 0x01#8)], _, _, by decide, eq_next_after _ (by decide),
    eq_next_after _ (by decide)⟩

theorem witness_EncodeReportsItsErrors :
    (∃ (s : State) (m : Mode) (message : List Byte), Mode.ofCode m.code = some m ∧
      (∃ x ∈ message, x.toNat = 0 ∨ 0x7F < x.toNat) ∧ message.length + 1 ≤ capacity s.n m) ∧
    (∃ (s : State) (m : Mode) (message : List Byte), Mode.ofCode m.code = some m ∧
      (∃ x ∈ message, x.toNat = 0 ∨ 0x7F < x.toNat) ∧ s.cfg.errOrder = .byteFirst) ∧
    (∃ (s : State) (m : Mode) (message : List Byte), Mode.ofCode m.code = some m ∧
      capacity s.n m < message.length + 1 ∧ ∀ x ∈ message, x.toNat ≠ 0 ∧ x.toNat ≤ 0x7F) ∧
    (∃ (s : State) (m : Mode) (message : List Byte), Mode.ofCode m.code = some m ∧
      capacity s.n m < message.length + 1 ∧ s.cfg.errOrder = .capacityFirst) :=
  ⟨⟨black 24, .rgb, [0x80#8], by decide, by decide, by decide⟩,
    ⟨black 8, .rgb, [0x41#8, 0x00#8], by decide, by decide, by decide⟩,
    ⟨black 9, .rgb, [0x7F#8, 0x7F#8, 0x01#8], by decide, by decide, by decide⟩,
    ⟨{ black 8 with cfg := { Config.default with errOrder := .capacityFirst } }, .rgb, [0x41#8, 0x80#8],
      by decide, by decide, by decide⟩⟩

theorem witness_EncodeCapacityBoundary :
    (∃ (s : State) (m : Mode) (message : List Byte), Mode.ofCode m.code = some m ∧
      validMessage message ∧ message.length + 1 = capacity s.n m) ∧
    (∃ (s : State) (m : Mode) (message : List Byte), Mode.ofCode m.code = some m ∧
      validMessage message ∧ message.length = capacity s.n m) :=
  ⟨⟨black 12, .gb, [0x41#8, 0x7F#8], by decide, by decide, by decide⟩,
    ⟨black 12, .gb, [0x41#8, 0x7F#8, 0x01#8], by decide, by decide, by decide⟩⟩

theorem witness_EncodeClosedForm :
    ∃ (s : State) (m : Mode) (message : List Byte) (a b : CellAddr), Memory.wf s.mem ∧
      Mode.ofCode m.code = some m ∧ validMessage message ∧ message.length + 1 ≤ capacity s.n m ∧
      carriesOne m message a ∧ ¬ carriesOne m message b := by
  refine ⟨buffer 8 [(0, 0xFF#8)], .rgb, [0x41#8], slot .rgb 0 1, slot .rgb 0 8, by decide, by decide,
    by decide, by decide, ⟨0, 0x41#8, 1, rfl, by decide, by decide, rfl⟩, ?_⟩
  rw [← mem_messageOnes]
  decide

theorem witness_EncodeOnBaselineStoresTheMessage :
    ∃ (s t : State) (m : Mode) (message : List Byte) (a : CellAddr), Memory.wf s.mem ∧ s.normalized ∧
      Mode.ofCode m.code = some m ∧ validMessage message ∧ message.length + 1 ≤ capacity s.n m ∧
      exec (.encode m.code message) s = .next t ∧ message[0]? = some 0x41#8 ∧ a.pixel < s.n ∧
      ∀ i j : Nat, i < message.length → j ≤ 7 → a ≠ slot m i j := by
  refine ⟨black 8, _, .rgb, [0x41#8], ⟨2, .b⟩, black_wf 8, black_normalized 8, by decide, by decide,
    by decide, eq_next_after _ (by decide), rfl, by decide, fun i j hi hj => ?_⟩
  obtain rfl : i = 0 := by simpa using hi
  revert j
  decide

theorem witness_EncodeTwiceIsEncodeOnce :
    ∃ (s t u : State) (m : Mode) (message : List Byte), Memory.wf s.mem ∧
      exec (.encode m.code message) s = .next t ∧ exec (.encode m.code message) t = .next u :=
  ⟨black 8, _, _, .rgb, [0x41#8], black_wf 8, eq_next_after _ (by decide), eq_next_after _ (by decide)⟩

theorem witness_EncodeCountsItsPixels :
    (∃ (s t : State) (m : Mode) (message : List Byte), Mode.ofCode m.code = some m ∧
      exec (.encode m.code message) s = .next t ∧ s.cfg.consumedCount = .spanned ∧
      t.returned = s.returned ++ [⟨.ok, some (.pixels 8)⟩]) ∧
    (∃ (s t : State) (m : Mode) (message : List Byte), Mode.ofCode m.code = some m ∧
      exec (.encode m.code message) s = .next t ∧ s.cfg.consumedCount = .modified ∧
      t.returned = s.returned ++ [⟨.ok, some (.pixels 3)⟩]) :=
  ⟨⟨black 16, _, .b, [0x31#8], by decide, eq_next_after _ (by decide), by decide, by decide⟩,
    ⟨{ black 16 with cfg := { Config.default with consumedCount := .modified } }, _, .b, [0x31#8],
      by decide, eq_next_after _ (by decide), by decide, by decide⟩⟩

theorem witness_EncodeNeverWritesTheseCells :
    ∃ (s t : State) (m : Mode) (message : List Byte), Memory.wf s.mem ∧ Mode.ofCode m.code = some m ∧
      exec (.encode m.code message) s = .next t ∧ m = .rgb ∧ message.length * m.ppb ≤ 3 ∧
      message[0]? = some 0x41#8 :=
  ⟨black 8, _, .rgb, [0x41#8], black_wf 8, by decide, eq_next_after _ (by decide), rfl, by decide, rfl⟩

theorem witness_EncodeNeverWritesTheseCells_channel :
    ∃ (s t : State) (m : Mode) (message : List Byte) (a : CellAddr), Memory.wf s.mem ∧
      Mode.ofCode m.code = some m ∧ exec (.encode m.code message) s = .next t ∧ a.channel ∉ m.chans :=
  ⟨black 8, _, .rg, [0x21#8], ⟨0, .b⟩, black_wf 8, by decide, eq_next_after _ (by decide), by decide⟩

theorem witness_EncodeOfTheEmptyMessage :
    (∃ (s : State) (m : Mode), Mode.ofCode m.code = some m ∧ 1 = capacity s.n m) ∧
    (∃ (s : State) (m : Mode), Mode.ofCode m.code = some m ∧ capacity s.n m = 0) :=
  ⟨⟨black 3, .rgb, by decide, by decide⟩, ⟨black 2, .rgb, by decide, by decide⟩⟩

theorem witness_EncodeResponseReadsNoCell :
    ∃ (s s' t t' : State) (m : Mode) (message : List Byte), s'.n = s.n ∧ s'.cfg = s.cfg ∧
      exec (.encode m.code message) s = .next t ∧ exec (.encode m.code message) s' = .next t' ∧ s' ≠ s :=
  ⟨black 8, buffer 8 [(4, 0x01#8)], _, _, .rgb, [0x41#8], rfl, rfl, eq_next_after _ (by decide),
    eq_next_after _ (by decide), by decide⟩

theorem witness_ReEncodingOrsThePatterns :
    ∃ (s t u v : State) (m : Mode) (message message' : List Byte), Memory.wf s.mem ∧
      exec (.encode m.code message) s = .next t ∧ exec (.encode m.code message') t = .next u ∧
      exec (.encode m.code message') s = .next v :=
  ⟨black 8, _, _, _, .rg, [0x21#8], [0x42#8], black_wf 8, eq_next_after _ (by decide),
    eq_next_after _ (by decide), eq_next_after _ (by decide)⟩

theorem witness_DecodeReturnsNonZeroBytes : ∃ code : ModeCode, code ≠ 0b000#3 := ⟨0b100#3, by decide⟩

/-- The scan of black 8 in RGB mode stops after 8 entries, with a sentinel. -/
theorem witness_DecodeRegroupsTheStream :
    (∃ (s : State) (m : Mode) (len : Nat), Mode.ofCode m.code = some m ∧ scanStops (s.stream m) len ∧
      len < (s.stream m).length) ∧
    (∃ (s : State) (m : Mode) (len : Nat), Mode.ofCode m.code = some m ∧ scanStops (s.stream m) len ∧
      len = (s.stream m).length) :=
  ⟨⟨black 8, .rgb, 8, by decide, by decide, by decide⟩, ⟨black 2, .rgb, 6, by decide, by decide, by decide⟩⟩

theorem witness_ZeroByteEndsOnlyTheLastGroup :
    (∃ (s : State) (m : Mode) (len : Nat) (out : List Byte), Mode.ofCode m.code = some m ∧
      scanStops (s.stream m) len ∧ m = .rgb ∧ exec (.decode m.code) s
        = .next (s.respond { status := .ok, result := some (.message out) })) ∧
    (∃ (s : State) (m : Mode) (len : Nat) (out : List Byte), Mode.ofCode m.code = some m ∧
      scanStops (s.stream m) len ∧ out.length < len / m.groupSize ∧ exec (.decode m.code) s
        = .next (s.respond { status := .ok, result := some (.message out) })) :=
  ⟨⟨black 3, .rgb, 8, [], by decide, by decide, rfl, rfl⟩,
    ⟨black 4, .rg, 8, [], by decide, by decide, by decide, rfl⟩⟩

theorem witness_DecodedLengthIsBounded :
    ∃ (s t : State) (m : Mode) (message out : List Byte), Memory.wf s.mem ∧ s.normalized ∧
      Mode.ofCode m.code = some m ∧ exec (.encode m.code message) s = .next t ∧
      t.returned = s.returned ++ [⟨.ok, some (.pixels 4)⟩] ∧
      exec (.decode m.code) t = .next (t.respond { status := .ok, result := some (.message out) }) := by
  refine ⟨black 8, _, .rg, [0x21#8], [0x21#8], black_wf 8, black_normalized 8, by decide,
    eq_next_after _ (by decide), by decide, ?_⟩
  rw [eq_next_after (exec (.decode Mode.rg.code) _) (by decide)]
  exact congrArg _ (by decide)

theorem witness_DecodeReadsOnlyItsBits :
    ∃ (s s' : State) (m : Mode) (out : List Byte), Mode.ofCode m.code = some m ∧ s'.n = s.n ∧ s' ≠ s ∧
      (∀ a : CellAddr, a.pixel < s.n → a.channel ∈ m.chans → lsb (s'.cell a) = lsb (s.cell a)) ∧
      exec (.decode m.code) s = .next (s.respond { status := .ok, result := some (.message out) }) := by
  refine ⟨black 1, buffer 1 [(2, 0x01#8)], .rg, [], by decide, rfl, by decide, ?_, rfl⟩
  rintro ⟨p, c⟩ hp hc
  obtain rfl : p = 0 := by simpa [black, buffer] using hp
  revert hc
  cases c <;> decide

theorem witness_PrematureSentinelByZeroCounts :
    (∃ (m : Mode) (message : List Byte), validMessage message ∧ prematureSentinel m message) ∧
    (∃ (m : Mode) (message : List Byte), validMessage message ∧ ¬ prematureSentinel m message) :=
  ⟨⟨.rgb, [0x40#8, 0x41#8], by decide, by decide⟩, ⟨.rg, [0x40#8, 0x41#8], by decide, by decide⟩⟩

theorem witness_RoundTripUnlessPrematureSentinel :
    (∃ (s t u : State) (m : Mode) (message : List Byte), Memory.wf s.mem ∧ Mode.ofCode m.code = some m ∧
      validMessage message ∧ message.length + 1 = capacity s.n m ∧ exec .normalize s = .next t ∧
      exec (.encode m.code message) t = .next u ∧ ¬ prematureSentinel m message) ∧
    (∃ (s t u : State) (m : Mode) (message : List Byte) (e : Nat), Memory.wf s.mem ∧
      Mode.ofCode m.code = some m ∧ validMessage message ∧ message.length + 1 = capacity s.n m ∧
      exec .normalize s = .next t ∧ exec (.encode m.code message) t = .next u ∧
      zeroWindowAt (messageStream m message) e ∧
      ∀ e', e' < e → ¬ zeroWindowAt (messageStream m message) e') :=
  ⟨⟨buffer 9 [(0, 0xFF#8), (8, 0xFF#8)], _, _, .rgb, [0x48#8, 0x69#8], by decide, by decide, by decide,
      by decide, eq_next_after _ (by decide), eq_next_after _ (by decide), by decide⟩,
    ⟨buffer 9 [(0, 0xFF#8)], _, _, .rgb, [0x40#8, 0x41#8], 9, by decide, by decide, by decide, by decide,
      eq_next_after _ (by decide), eq_next_after _ (by decide), by decide, by decide⟩⟩

end Sys2Proof.Machine.Tests
end

section
/-! SUPPORT. The family of spec/00_scope.md: every step keeps the invariant, and what handing over a buffer does. The invariant is shown
once for each operation that writes the memory; a step is then one of the cases of `step_cases`. -/
namespace Sys2Proof.Machine

/-! ## The empty memory and the buffer handed over -/

theorem wf_nil : Memory.wf [] := ⟨List.Pairwise.nil, List.forall_mem_nil _⟩

/-- The memory of a buffer handed over holds each pixel's channels in the pixel's cells (R13). -/
theorem read_handedOver (pixels : List Pixel) (a : CellAddr) (px : Pixel)
    (h : pixels[a.pixel]? = some px) :
    Memory.read (Memory.writePixels 0 pixels []) a.key = px.channel a.channel := by
  obtain ⟨hlt, hpx⟩ := List.getElem?_eq_some_iff.mp h
  rw [read_writePixels pixels 0 [] wf_nil a, dif_pos ⟨Nat.zero_le _, by omega⟩]
  simp only [Nat.sub_zero, hpx]

/-- A step that takes the move `handOver` is that host operation, with the move taken off (R125). -/
theorem step_of_handOver (s : State) (pixels : List Pixel) (rest : List HostMove)
    (h : s.host = .handOver pixels :: rest) :
    step s = handOver pixels { s with host := rest } := by
  simp only [step, h]

/-! ## The operations keep the invariant -/

/-- An instruction keeps the invariant: it keeps the canonical form, the bound of the keys, `N` and the parameters. -/
theorem exec_keeps_inv (i : Instr) (s t : State) (hs : s.Inv) (h : exec i s = .next t) : t.Inv := by
  obtain ⟨hwf, hkeys, hmax⟩ := hs
  obtain ⟨r, ht, -, hmem⟩ := exec_cases i s t h
  obtain ⟨hwf', hkeys'⟩ := hmem hwf
  have hn : t.n = s.n := by rw [ht]
  have hcfg : t.cfg = s.cfg := by rw [ht]
  exact ⟨hwf', hn ▸ hkeys' hkeys, by rwa [hn, hcfg]⟩

/-- A write to a cell of the buffer keeps the invariant (R26). -/
theorem write_keeps_inv (s : State) (a : CellAddr) (v : Byte) (hs : s.Inv) (ha : a.pixel < s.n) :
    ({ s with mem := Memory.write s.mem a.key v } : State).Inv := by
  obtain ⟨hwf, hkeys, hmax⟩ := hs
  exact ⟨write_wf s.mem a.key v hwf, write_key_lt s.mem a.key v _ (key_lt a s.n ha) hkeys, hmax⟩

/-- A buffer of at most `N_MAX` pixels handed over meets the invariant, whatever the state was before (R6). -/
theorem handedOver_inv (s : State) (pixels : List Pixel) (hle : pixels.length ≤ s.cfg.nMax) :
    ({ s with n := pixels.length, mem := Memory.writePixels 0 pixels [] } : State).Inv :=
  ⟨writePixels_wf pixels 0 [] wf_nil,
    writePixels_key_lt pixels 0 _ [] (Nat.zero_add _).le (List.forall_mem_nil _), hle⟩

/-! ## The obligations -/

/-- Settles O19, by the cases of a step. The host's moves and the responses are no part of the invariant, so taking a move off
or answering a response alone keeps it. -/
theorem stepKeepsInv : Obligations.StepKeepsInv := by
  intro s t hs h
  have taken (rest : List HostMove) : ({ s with host := rest } : State).Inv := hs
  rcases step_cases s t h with ⟨-, rfl⟩ | ⟨c, rest, i, -, -, hexec⟩ | ⟨c, rest, e, -, -, rfl⟩
    | ⟨pixels, rest, -, hle, rfl⟩ | ⟨a, v, rest, -, ha, rfl⟩ | ⟨rest, -, rfl⟩
  · exact hs
  · exact exec_keeps_inv i _ t (taken rest) hexec
  · exact taken rest
  · exact handedOver_inv { s with host := rest } pixels hle
  · exact write_keeps_inv { s with host := rest } a v (taken rest) ha
  · exact taken rest

/-- Settles O17, by the two branches of the host's move `handOver`. -/
theorem handOverInstallsTheBuffer : Obligations.HandOverInstallsTheBuffer := by
  intro s pixels rest hhost
  rw [step_of_handOver s pixels rest hhost]
  constructor
  · intro hle
    exact ⟨Memory.writePixels 0 pixels [], if_pos hle, read_handedOver pixels⟩
  · intro hlt
    exact if_neg (Nat.not_le.mpr hlt)

end Sys2Proof.Machine
end

section
/-! SUPPORT. The family of spec/10_state.md: the table of mode descriptors and the capacity, what a step does for each of the host's
moves, what a command leaves of the state, and what it depends on. -/
namespace Sys2Proof.Machine

/-! ## The capacity -/

/-- The capacity is the number of whole byte groups of pixels: `k` cancels from `(N * k) div (k * ppb)` (R19). -/
theorem capacity_eq (n : Nat) (m : Mode) : capacity n m = n / m.ppb := by
  rw [capacity, groupSize_eq, Nat.mul_comm n, Nat.mul_div_mul_left _ _ (k_pos m)]

/-! ## A step, by the host's next move -/

theorem step_of_idle (s : State) (h : s.host = []) : step s = .next s := by
  simp only [step, h]

theorem step_of_reset (s : State) (rest : List HostMove) (h : s.host = .reset :: rest) :
    step s = .next { s with host := rest } := by
  simp only [step, h, takeReset]

theorem step_of_write (s : State) (a : CellAddr) (v : Byte) (rest : List HostMove)
    (h : s.host = .write a v :: rest) : step s = hostWrite a v { s with host := rest } := by
  simp only [step, h]

theorem step_of_legal_command (s : State) (c : Command) (rest : List HostMove) (i : Instr)
    (h : s.host = .command c :: rest) (hd : decodeCommand c = .ok i) :
    step s = exec i { s with host := rest } := by
  simp only [step, h, hd]

theorem step_of_illegal_command (s : State) (c : Command) (rest : List HostMove) (e : DecodeError)
    (h : s.host = .command c :: rest) (hd : decodeCommand c = .error e) :
    step s = illegalCommand { s with host := rest } := by
  simp only [step, h, hd]

/-- A host write to a cell of the buffer is one write of the memory (R14, R125). -/
theorem hostWrite_inside (s : State) (a : CellAddr) (v : Byte) (h : a.pixel < s.n) :
    hostWrite a v s = .next { s with mem := Memory.write s.mem a.key v } := by
  simp only [hostWrite, memWrite_eq s a v h]

/-- A host write outside the buffer faults: the cell does not exist (R26, log entry 5). -/
theorem hostWrite_outside (s : State) (a : CellAddr) (v : Byte) (h : s.n ≤ a.pixel) :
    hostWrite a v s = .fault (.noSuchCell a) := by
  simp only [hostWrite, State.memWrite, if_neg (Nat.not_lt.mpr h)]

/-- An issued command, legal or not, is taken off the host's moves and answers one response; it changes no other field but the
memory. -/
theorem step_command_frame (s t : State) (c : Command) (rest : List HostMove)
    (hhost : s.host = .command c :: rest) (h : step s = .next t) :
    ∃ r, t = { s with host := rest, mem := t.mem, returned := s.returned ++ [r] } := by
  cases hd : decodeCommand c with
  | ok i =>
    rw [step_of_legal_command s c rest i hhost hd] at h
    obtain ⟨r, ht, -⟩ := exec_cases i { s with host := rest } t h
    exact ⟨r, ht⟩
  | error e =>
    rw [step_of_illegal_command s c rest e hhost hd, illegalCommand, raise_eq,
      Host.Outcome.next.injEq] at h
    subst h
    exact ⟨_, rfl⟩

/-! ## Two states with the same buffer and parameters

The host's moves and the responses returned may differ between `s` and `s'`; the accesses, the walks and the instructions do
the same in both (R20, R23). -/

section SameBuffer
variable {s s' : State} (hn : s'.n = s.n) (hmem : s'.mem = s.mem)
include hmem

theorem cell_congr (a : CellAddr) : s'.cell a = s.cell a := by
  rw [State.cell, State.cell, hmem]

include hn

theorem memRead_congr (a : CellAddr) : s'.memRead a = s.memRead a := by
  rw [State.memRead, State.memRead, hn, cell_congr hmem]

/-- DECODE's scan reads the same bits in both (R83). -/
theorem scan_congr (cells : List CellAddr) (bits : List Bool) :
    s'.scan cells bits = s.scan cells bits := by
  induction cells generalizing bits with
  | nil => rfl
  | cons a rest ih => simp only [State.scan, memRead_congr hn hmem, ih]

/-- The walk over cells of the buffer leaves the same memory in both (R32). -/
theorem modifyCells_congr (f : Byte → Byte) (cells : List CellAddr)
    (hin : ∀ a ∈ cells, a.pixel < s.n) :
    ∃ mem, s.modifyCells f cells = .ok { s with mem := mem }
      ∧ s'.modifyCells f cells = .ok { s' with mem := mem } := by
  induction cells generalizing s s' with
  | nil => exact ⟨s.mem, rfl, by rw [← hmem]; rfl⟩
  | cons a rest ih =>
    obtain ⟨ha, hrest⟩ := List.forall_mem_cons.mp hin
    simp only [State.modifyCells, modifyCell_eq f s a ha, modifyCell_eq f s' a (hn ▸ ha)]
    have hw : Memory.write s'.mem a.key (f (s'.cell a)) = Memory.write s.mem a.key (f (s.cell a)) := by
      rw [cell_congr hmem, hmem]
    exact ih (s := { s with mem := _ }) (s' := { s' with mem := _ }) hn hw hrest

/-- Every instruction leaves the same memory and answers the same response from both. -/
theorem exec_congr (hcfg : s'.cfg = s.cfg) (i : Instr) :
    ∃ mem r, exec i s = .next (({ s with mem := mem } : State).respond r)
      ∧ exec i s' = .next (({ s' with mem := mem } : State).respond r) := by
  have walk := modifyCells_congr hn hmem
  have scan := scan_congr hn hmem
  obtain ⟨cfg', n', mem', host', returned'⟩ := s'
  subst hn hmem hcfg
  cases i with
  | selectMode token =>
    simp only [exec, execSelectMode]
    split <;> exact ⟨s.mem, _, rfl, rfl⟩
  | normalize =>
    obtain ⟨mem, hw, hw'⟩ := walk clearLsb (bufferCells s.n)
      (fun a ha => (mem_bufferCells s.n a).mp ha)
    simp only [exec, execNormalize, hw, hw']
    exact ⟨mem, _, rfl, rfl⟩
  | encode code message =>
    simp only [exec, execEncode]
    split
    · exact ⟨s.mem, _, rfl, rfl⟩
    · rename_i m _
      split
      · exact ⟨s.mem, _, rfl, rfl⟩
      · rename_i herr
        obtain ⟨-, hfit⟩ := (encodeError_eq_none _ _ _).mp herr
        obtain ⟨mem, hw, hw'⟩ := walk setLsb (messageOnes m message)
          (messageOnes_pixel_lt s.n m message hfit)
        simp only [hw, hw']
        exact ⟨mem, _, rfl, rfl⟩
  | decode code =>
    simp only [exec, execDecode]
    split
    · exact ⟨s.mem, _, rfl, rfl⟩
    · rename_i m _
      obtain ⟨k, -, hk, -⟩ := scan_stream s m
      simp only [scan, hk]
      exact ⟨s.mem, _, rfl, rfl⟩

end SameBuffer

/-! ## The obligations -/

/-- Settles O26, from what a step leaves of the state when it takes a command. -/
theorem commandsKeepNAndParameters : Obligations.CommandsKeepNAndParameters := by
  intro s t c rest hhost h
  obtain ⟨r, ht⟩ := step_command_frame s t c rest hhost h
  rw [ht]
  exact ⟨rfl, rfl, rfl⟩

/-- Settles O28: the memory and the response of an instruction are the same from two states that agree on the buffer and the
parameters. -/
theorem commandsDependOnNoOtherCommand : Obligations.CommandsDependOnNoOtherCommand := by
  intro i s s' t t' hn hmem hcfg h h'
  obtain ⟨mem, r, hs, hs'⟩ := exec_congr hn hmem hcfg i
  rw [hs, Host.Outcome.next.injEq] at h
  rw [hs', Host.Outcome.next.injEq] at h'
  subst h h'
  exact ⟨rfl, r, rfl, rfl⟩

/-- Settles O7: the seven rows one by one, each evaluated. -/
theorem descriptorTable : Obligations.DescriptorTable := by
  unfold Obligations.DescriptorTable
  simp only [List.forall_mem_cons]
  exact ⟨⟨rfl, rfl⟩, ⟨rfl, rfl⟩, ⟨rfl, rfl⟩, ⟨rfl, rfl⟩, ⟨rfl, rfl⟩, ⟨rfl, rfl⟩, ⟨rfl, rfl⟩,
    List.forall_mem_nil _⟩

/-- Settles O8: the pixels per byte group are 3, 4 or 8 by the mode's family. -/
theorem capacityCountsByteGroups : Obligations.CapacityCountsByteGroups := by
  intro n m
  refine ⟨rfl, capacity_eq n m, ?_, ?_, ?_⟩
  · rintro rfl
    exact capacity_eq n .rgb
  · rintro (rfl | rfl | rfl)
    exacts [capacity_eq n .rg, capacity_eq n .rb, capacity_eq n .gb]
  · rintro (rfl | rfl | rfl)
    exacts [capacity_eq n .r, capacity_eq n .g, capacity_eq n .b]

/-- Settles O16, by the two moves a step answers without an operation on the buffer. -/
theorem idleAndResetChangeNothing : Obligations.IdleAndResetChangeNothing :=
  ⟨step_of_idle, step_of_reset⟩

/-- Settles O18, by whether the cell is in the buffer; inside it, reading after the write gives each cell's value. -/
theorem hostWriteSetsOneCell : Obligations.HostWriteSetsOneCell := by
  intro s a v rest hwf hhost
  rw [step_of_write s a v rest hhost]
  constructor
  · intro hin
    exact ⟨Memory.write s.mem a.key v, hostWrite_inside { s with host := rest } a v hin,
      fun b => cell_write s a b v hwf⟩
  · intro hout
    exact hostWrite_outside { s with host := rest } a v hout

/-- Settles O20: the reset state lists no cell and holds no move, so its step is the idle one. -/
theorem resetMeetsInv : Obligations.ResetMeetsInv :=
  ⟨⟨wf_nil, List.forall_mem_nil _, Nat.zero_le _⟩, rfl, rfl, step_of_idle State.reset rfl⟩

end Sys2Proof.Machine
end

section
/-! SUPPORT. The family of spec/20_memory.md: the cell accesses, the issued command as one operation, no command outside the buffer,
and the bits DECODE reads. -/
namespace Sys2Proof.Machine

/-! ## Every instruction completes -/

/-- An instruction answers a response and changes no field but the memory and the responses, from every state: what
`exec_congr` says of a state and itself (R35, R97). -/
theorem exec_completes (i : Instr) (s : State) :
    ∃ mem r, exec i s = .next (({ s with mem := mem } : State).respond r) := by
  obtain ⟨mem, r, h, -⟩ := exec_congr (s := s) (s' := s) rfl rfl rfl i
  exact ⟨mem, r, h⟩

/-! ## The bits DECODE reads -/

/-- The cells DECODE walks are those of the mode's channels in the buffer (R83). -/
theorem mem_streamCells (m : Mode) (n : Nat) (a : CellAddr) :
    a ∈ streamCells m n ↔ a.pixel < n ∧ a.channel ∈ m.chans := by
  obtain ⟨p, c⟩ := a
  simp only [streamCells, List.mem_flatMap, List.mem_range, List.mem_map, CellAddr.mk.injEq]
  constructor
  · rintro ⟨_, hp, _, hc, rfl, rfl⟩
    exact ⟨hp, hc⟩
  · rintro ⟨hp, hc⟩
    exact ⟨p, hp, c, hc, rfl, rfl⟩

/-- DECODE's scan uses bit 0 alone of each cell it reads: over cells of both buffers with the same bits 0 it answers the same,
whatever the other bits and the other cells hold (R83). -/
theorem scan_congr_lsb (s s' : State) (cells : List CellAddr) (bits : List Bool) (hn : s'.n = s.n)
    (hin : ∀ a ∈ cells, a.pixel < s.n) (hlsb : ∀ a ∈ cells, lsb (s'.cell a) = lsb (s.cell a)) :
    s'.scan cells bits = s.scan cells bits := by
  induction cells generalizing bits with
  | nil => rfl
  | cons a rest ih =>
    obtain ⟨ha, hrest⟩ := List.forall_mem_cons.mp hin
    obtain ⟨hbit, hbits⟩ := List.forall_mem_cons.mp hlsb
    simp only [State.scan, memRead_eq s a ha, memRead_eq s' a (hn ▸ ha), hbit, ih _ hrest hbits]

/-- Two states after a response to the same state are equal only for the same response. -/
theorem respond_inj (s : State) (r r' : Response) : s.respond r = s.respond r' ↔ r = r' := by
  constructor
  · intro h
    have hreturned : s.returned ++ [r] = s.returned ++ [r'] := congrArg State.returned h
    exact List.singleton_inj.mp (List.append_cancel_left hreturned)
  · exact congrArg s.respond

/-! ## The obligations -/

/-- Settles O21: every instruction completes, and in the same buffer. -/
theorem everyCommandCompletes : Obligations.EveryCommandCompletes := by
  intro i s
  obtain ⟨mem, r, h⟩ := exec_completes i s
  exact ⟨_, h⟩

/-- Settles O52: the scans of both states answer the same bit buffer, of which the output is a function. -/
theorem decodeReadsOnlyItsBits : Obligations.DecodeReadsOnlyItsBits := by
  intro s s' code m out hm hn hlsb h
  obtain ⟨bits, hscan, hexec⟩ := execDecode_eq code m s hm
  obtain ⟨bits', hscan', hexec'⟩ := execDecode_eq code m s' hm
  have hwalk : ∀ a ∈ streamCells m s.n, lsb (s'.cell a) = lsb (s.cell a) := fun a ha =>
    have ⟨hpixel, hchannel⟩ := (mem_streamCells m s.n a).mp ha
    hlsb a hpixel hchannel
  have hbits : bits' = bits := by
    rw [hn, scan_congr_lsb s s' _ _ hn (streamCells_pixel_lt m s.n) hwalk, hscan] at hscan'
    exact (Except.ok.inj hscan').symm
  have hout : outputBytes m bits = out := by
    rw [exec, hexec, Host.Outcome.next.injEq, respond_inj] at h
    simpa using h
  rw [exec, hexec', hbits, hout]

/-- Settles O12: the two accesses complete in the buffer, and reading after the write gives each cell's value. -/
theorem cellAccesses : Obligations.CellAccesses := by
  intro s a v hwf ha
  have hcell := fun b => cell_write s a b v hwf
  exact ⟨memRead_eq s a ha, Memory.write s.mem a.key v, memWrite_eq s a v ha,
    (hcell a).trans (if_pos rfl), fun b hb => (hcell b).trans (if_neg hb)⟩

/-- Settles O13: the step at a command that decodes, as the family of spec/10_state.md says it. -/
theorem stepPerformsTheIssuedCommand : Obligations.StepPerformsTheIssuedCommand :=
  step_of_legal_command

end Sys2Proof.Machine
end

section
/-! SUPPORT. The family of spec/30_encoding.md: the fields of the command word and the decoder case by case of them, the mode codes and
names, the response a command answers, and a run of commands. -/
namespace Sys2Proof.Machine

/-! ## The fields of the command word (R41) -/

@[simp] theorem commandWord_rsv (mode : ModeCode) (op : BitVec 2) :
    (commandWord mode op).extractLsb' 5 3 = 0#3 := by
  revert mode op; decide

@[simp] theorem commandWord_mode (mode : ModeCode) (op : BitVec 2) :
    (commandWord mode op).extractLsb' 2 3 = mode := by
  revert mode op; decide

@[simp] theorem commandWord_op (mode : ModeCode) (op : BitVec 2) :
    (commandWord mode op).extractLsb' 0 2 = op := by
  revert mode op; decide

/-- A word with clear reserved bits is the word of its own two other fields. -/
theorem commandWord_of_fields (w : Byte) (h : w.extractLsb' 5 3 = 0#3) :
    commandWord (w.extractLsb' 2 3) (w.extractLsb' 0 2) = w := by
  revert w; decide

theorem op_cases (op : BitVec 2) : op = 0b00#2 ∨ op = 0b01#2 ∨ op = 0b10#2 ∨ op = 0b11#2 := by
  revert op; decide

/-! ## The decoder, by the fields of the word (R45, R49) -/

section Decoder
variable {c : Command}

theorem decode_reservedBits (hrsv : c.rsv ≠ 0#3) : decodeCommand c = .error .reservedBits :=
  if_pos hrsv

variable (hrsv : c.rsv = 0#3)
include hrsv

theorem decode_selectMode (hop : c.op = 0b00#2) (hmode : c.mode = 0#3) :
    decodeCommand c = .ok (.selectMode c.payload) := by
  simp_all [decodeCommand, Command.rsv, Command.op, Command.mode]

theorem decode_modeOnSelectMode (hop : c.op = 0b00#2) (hmode : c.mode ≠ 0#3) :
    decodeCommand c = .error .modeOnSelectMode := by
  simp_all [decodeCommand, Command.rsv, Command.op, Command.mode]

theorem decode_normalize (hop : c.op = 0b01#2) (hmode : c.mode = 0#3) :
    decodeCommand c = .ok .normalize := by
  simp_all [decodeCommand, Command.rsv, Command.op, Command.mode]

theorem decode_modeOnNormalize (hop : c.op = 0b01#2) (hmode : c.mode ≠ 0#3) :
    decodeCommand c = .error .modeOnNormalize := by
  simp_all [decodeCommand, Command.rsv, Command.op, Command.mode]

theorem decode_encode (hop : c.op = 0b10#2) : decodeCommand c = .ok (.encode c.mode c.payload) := by
  simp_all [decodeCommand, Command.rsv, Command.op, Command.mode]

theorem decode_decode (hop : c.op = 0b11#2) : decodeCommand c = .ok (.decode c.mode) := by
  simp_all [decodeCommand, Command.rsv, Command.op, Command.mode]

end Decoder

/-! The words of the opcode map, with any payload. -/

theorem decode_selectModeWord (payload : List Byte) :
    decodeCommand ⟨commandWord 0#3 0b00#2, payload⟩ = .ok (.selectMode payload) :=
  decode_selectMode (commandWord_rsv _ _) (commandWord_op _ _) (commandWord_mode _ _)

theorem decode_normalizeWord (payload : List Byte) :
    decodeCommand ⟨commandWord 0#3 0b01#2, payload⟩ = .ok .normalize :=
  decode_normalize (commandWord_rsv _ _) (commandWord_op _ _) (commandWord_mode _ _)

theorem decode_encodeWord (mode : ModeCode) (payload : List Byte) :
    decodeCommand ⟨commandWord mode 0b10#2, payload⟩ = .ok (.encode mode payload) := by
  have h := decode_encode (c := ⟨commandWord mode 0b10#2, payload⟩) (commandWord_rsv _ _)
    (commandWord_op _ _)
  rwa [Command.mode, commandWord_mode] at h

theorem decode_decodeWord (mode : ModeCode) (payload : List Byte) :
    decodeCommand ⟨commandWord mode 0b11#2, payload⟩ = .ok (.decode mode) := by
  have h := decode_decode (c := ⟨commandWord mode 0b11#2, payload⟩) (commandWord_rsv _ _)
    (commandWord_op _ _)
  rwa [Command.mode, commandWord_mode] at h

theorem decode_encodeInstr (i : Instr) : decodeCommand (encodeInstr i) = .ok i := by
  cases i with
  | selectMode token => exact decode_selectModeWord token
  | normalize => exact decode_normalizeWord []
  | encode mode message => exact decode_encodeWord mode message
  | decode mode => exact decode_decodeWord mode []

/-- The two checks of R45, field by field. -/
theorem legal_iff (c : Command) :
    c.legal = true ↔ c.rsv = 0#3 ∧ (c.op = 0b00#2 ∨ c.op = 0b01#2 → c.mode = 0#3) := by
  simp only [Command.legal, Command.rsvClear, Command.modeClear, Bool.and_eq_true, beq_iff_eq,
    Bool.or_eq_true, Bool.not_eq_true', Bool.or_eq_false_iff, beq_eq_false_iff_ne]
  tauto

/-- A word that fails a check of R45 decodes to no instruction. -/
theorem decode_of_illegal (c : Command) (h : c.legal ≠ true) : ∃ e, decodeCommand c = .error e := by
  rw [Ne, legal_iff] at h
  by_cases hrsv : c.rsv = 0#3
  · obtain ⟨hop, hmode⟩ := Classical.not_imp.mp (not_and.mp h hrsv)
    rcases hop with hop | hop
    · exact ⟨_, decode_modeOnSelectMode hrsv hop hmode⟩
    · exact ⟨_, decode_modeOnNormalize hrsv hop hmode⟩
  · exact ⟨_, decode_reservedBits hrsv⟩

/-- The instruction has the word of the command, and its payload but where R46 ignores it. -/
def encodesAs (i : Instr) (c : Command) : Prop :=
  (encodeInstr i).word = c.word ∧
    ((encodeInstr i).payload = c.payload ∨
      ((encodeInstr i).payload = [] ∧ (i = .normalize ∨ ∃ m, i = .decode m)))

/-- A word that passes the checks of R45 decodes to the instruction that encodes as the command, whatever the payload. -/
theorem decode_of_legal (c : Command) (h : c.legal = true) :
    ∃ i, decodeCommand c = .ok i ∧ encodesAs i c := by
  obtain ⟨hrsv, hmode⟩ := (legal_iff c).mp h
  have hword : commandWord c.mode c.op = c.word := commandWord_of_fields c.word hrsv
  rcases op_cases c.op with hop | hop | hop | hop
  · rw [hop, hmode (.inl hop)] at hword
    exact ⟨_, decode_selectMode hrsv hop (hmode (.inl hop)), hword, .inl rfl⟩
  · rw [hop, hmode (.inr hop)] at hword
    exact ⟨_, decode_normalize hrsv hop (hmode (.inr hop)), hword, .inr ⟨rfl, .inl rfl⟩⟩
  · rw [hop] at hword
    exact ⟨_, decode_encode hrsv hop, hword, .inl rfl⟩
  · rw [hop] at hword
    exact ⟨_, decode_decode hrsv hop, hword, .inr ⟨rfl, .inr ⟨_, rfl⟩⟩⟩

/-- A command that decodes is one the instruction encodes as. -/
theorem encodesAs_of_decode (c : Command) (i : Instr) (h : decodeCommand c = .ok i) :
    encodesAs i c := by
  by_cases hc : c.legal = true
  · obtain ⟨j, hj, henc⟩ := decode_of_legal c hc
    obtain rfl : i = j := Except.ok.inj (h.symm.trans hj)
    exact henc
  · obtain ⟨e, he⟩ := decode_of_illegal c hc
    cases h.symm.trans he

/-! ## The match and mask columns of the command map (R49) -/

/-- Under the mask of ENCODE and DECODE a word matches an operation exactly when it is the operation's word of some mode. -/
theorem matches_iff (w : Byte) (op : BitVec 2) :
    w &&& 0xE3#8 = commandWord 0#3 op ↔ ∃ mode, w = commandWord mode op := by
  constructor
  · intro h
    refine ⟨w.extractLsb' 2 3, ?_⟩
    revert w op; decide
  · rintro ⟨mode, rfl⟩
    revert mode op; decide

/-- An encoded instruction's word matches its row of the command map. -/
theorem encodeInstr_word_matches (i : Instr) :
    (encodeInstr i).word = 0x00#8 ∨ (encodeInstr i).word = 0x01#8 ∨
      (encodeInstr i).word &&& 0xE3#8 = 0x02#8 ∨ (encodeInstr i).word &&& 0xE3#8 = 0x03#8 := by
  have hrow (mode : ModeCode) (op : BitVec 2) : commandWord mode op &&& 0xE3#8 = commandWord 0#3 op :=
    (matches_iff _ op).mpr ⟨mode, rfl⟩
  cases i with
  | selectMode token => exact .inl rfl
  | normalize => exact .inr (.inl rfl)
  | encode mode message => exact .inr (.inr (.inl (hrow mode 0b10#2)))
  | decode mode => exact .inr (.inr (.inr (hrow mode 0b11#2)))

/-- The table words that decode: R45's 18 legal words. -/
theorem legalTableWords :
    (List.range 256).filter (fun w => (decodeTableWord 8 w).isSome) =
      [0, 1, 2, 3, 6, 7, 10, 11, 14, 15, 18, 19, 22, 23, 26, 27, 30, 31] := by
  decide +kernel

/-! ## The mode codes and their channels (R43, R44) -/

/-- A code names no mode but the one it is the code of. -/
theorem code_of_ofCode (code : ModeCode) (m : Mode) (h : Mode.ofCode code = some m) :
    m.code = code := by
  have hall : ∀ code : ModeCode, ∀ m ∈ Mode.ofCode code, m.code = code := by decide
  exact hall code m h

theorem ofCode_eq_none (code : ModeCode) : Mode.ofCode code = none ↔ code = 0b000#3 := by
  revert code; decide

/-- A mode's channels are the set bits of its code, in channel order (R43). -/
theorem chans_eq_bits (m : Mode) :
    m.chans = [Channel.r, .g, .b].filter (fun c => m.code.getLsbD c.num) := by
  cases m <;> rfl

theorem pad_iff_code (m : Mode) : m.desc.pad = true ↔ m.code = 0b111#3 := by
  cases m <;> decide

/-! ## The mode names of an assembler line (R51, R52) -/

/-- The mode names with their codes. -/
def modeNames : List (List Char × ModeCode) :=
  [(['R', 'G', 'B'], 0b111#3), (['R', 'G'], 0b011#3), (['R', 'B'], 0b101#3), (['G', 'B'], 0b110#3),
    (['R'], 0b001#3), (['G'], 0b010#3), (['B'], 0b100#3), (['N', 'O', 'N', 'E'], 0b000#3)]

theorem modeCodeOfName_iff (name : List Char) (code : ModeCode) :
    modeCodeOfName name = some code ↔ (name, code) ∈ modeNames := by
  constructor
  · intro h
    unfold modeCodeOfName at h
    split_ifs at h <;> cases h <;> subst name <;> decide
  · have hrows : ∀ row ∈ modeNames, modeCodeOfName row.1 = some row.2 := by decide
    exact hrows (name, code)

/-! ## The response of a command (R40, R48) -/

/-- The result is one an instruction that completes may return (R48, R90). -/
def resultOfKind : Instr → Option Result → Prop
  | .selectMode _, result => ∃ code, result = some (.mode code)
  | .normalize, result => result = none
  | .encode _ _, result => ∃ count, result = some (.pixels count)
  | .decode _, result => ∃ bytes, result = some (.message bytes) ∧
      ∀ x ∈ bytes, 1 ≤ x.toNat ∧ x.toNat ≤ 255

/-- DECODE's output holds no zero byte (R87, R90). -/
theorem outputBytes_range (m : Mode) (bits : List Bool) :
    ∀ x ∈ outputBytes m bits, 1 ≤ x.toNat ∧ x.toNat ≤ 255 := by
  intro x hx
  have hne : x ≠ 0#8 := by simpa using List.mem_takeWhile_imp hx
  bv_omega

/-- An instruction answers an error without a result, or completes with a result of its kind. -/
theorem exec_response (i : Instr) (s t : State) (h : exec i s = .next t) :
    ∃ r, t.returned = s.returned ++ [r] ∧
      ((∃ e, r = { status := .error e, result := none }) ∨
        (r.status = .ok ∧ resultOfKind i r.result)) := by
  cases i with
  | selectMode token =>
    simp only [exec, execSelectMode, complete_eq, raise_eq] at h
    split at h <;> rw [Host.Outcome.next.injEq] at h <;> subst h
    · exact ⟨_, rfl, .inr ⟨rfl, _, rfl⟩⟩
    · exact ⟨_, rfl, .inl ⟨_, rfl⟩⟩
  | normalize =>
    obtain ⟨mem, hwalk⟩ := normalize_walk s
    simp only [exec, execNormalize, hwalk, complete_eq, Host.Outcome.next.injEq] at h
    subst h
    exact ⟨_, rfl, .inr ⟨rfl, rfl⟩⟩
  | encode code message =>
    rcases execEncode_cases code message s t h with ⟨e, rfl⟩ | ⟨m, -, -, -, ht, -⟩
    · exact ⟨_, rfl, .inl ⟨e, rfl⟩⟩
    · exact ⟨_, congrArg State.returned ht, .inr ⟨rfl, _, rfl⟩⟩
  | decode code =>
    cases hm : Mode.ofCode code with
    | none =>
      simp only [exec, execDecode, hm, raise_eq, Host.Outcome.next.injEq] at h
      subst h
      exact ⟨_, rfl, .inl ⟨_, rfl⟩⟩
    | some m =>
      obtain ⟨bits, -, hexec⟩ := execDecode_eq code m s hm
      rw [exec, hexec, Host.Outcome.next.injEq] at h
      subst h
      exact ⟨_, rfl, .inr ⟨rfl, _, rfl, outputBytes_range m bits⟩⟩

/-! ## A run of commands (R122, R124) -/

/-- An issued command, legal or not, is taken off the host's moves and answers one response. -/
theorem step_command_completes (s : State) (c : Command) (rest : List HostMove)
    (h : s.host = .command c :: rest) :
    ∃ t r, step s = .next t ∧ t.host = rest ∧ t.returned = s.returned ++ [r] := by
  cases hd : decodeCommand c with
  | ok i =>
    obtain ⟨mem, r, hexec⟩ := exec_completes i { s with host := rest }
    exact ⟨_, r, (step_of_legal_command s c rest i h hd).trans hexec, rfl, rfl⟩
  | error e => exact ⟨_, _, step_of_illegal_command s c rest e h hd, rfl, rfl⟩

/-- A run of one step more goes on from that step's next state. -/
theorem run_succ (k : Nat) (s t : State) (h : step s = .next t) :
    Host.Core.run core (k + 1) s = Host.Core.run core k t := by
  have hcore : core.step s = .next t := h
  simp only [Host.Core.run, hcore]

/-! ## The obligations -/

/-- Settles O3, by the fields of the word: an encoded word has the fields of its instruction, and a legal word is the word of
its own fields. -/
theorem encodedInstructionsDecodeBack : Obligations.EncodedInstructionsDecodeBack :=
  ⟨decode_encodeInstr, encodesAs_of_decode⟩

/-- Settles O22, from the responses an instruction can answer. -/
theorem commandReturnsOneResponse : Obligations.CommandReturnsOneResponse := by
  intro i s t h
  obtain ⟨r, hr, hcase⟩ := exec_response i s t h
  refine ⟨r, hr, ?_⟩
  rcases hcase with ⟨e, rfl⟩ | ⟨hok, hkind⟩
  · exact ⟨fun _ => rfl, nofun⟩
  · refine ⟨fun hne => absurd hok hne, fun _ => ⟨?_, ?_, ?_, ?_⟩⟩
    · rintro ⟨token, rfl⟩
      exact hkind
    · rintro rfl
      exact hkind
    · rintro ⟨m, message, rfl⟩
      exact hkind
    · rintro ⟨m, rfl⟩
      exact hkind

/-- Settles O29, by induction on the commands: each step takes one off and answers one response. -/
theorem runOfCommandsEnds : Obligations.RunOfCommandsEnds := by
  intro commands
  induction commands with
  | nil => exact fun s hhost => ⟨s, rfl, hhost, [], rfl, (List.append_nil _).symm⟩
  | cons c rest ih =>
    intro s hhost
    obtain ⟨t, r, hstep, hrest, hreturned⟩ := step_command_completes s c _ hhost
    obtain ⟨u, hrun, hidle, responses, hlen, hresponses⟩ := ih t hrest
    refine ⟨u, (run_succ _ s t hstep).trans hrun, hidle, r :: responses, ?_, ?_⟩
    · rw [List.length_cons, List.length_cons, hlen]
    · rw [hresponses, hreturned, List.append_assoc, List.singleton_append]

/-- Settles O1: a word that matches a row is the row's word, and a command that decodes has a word that matches a row. -/
theorem commandMapIsTotal : Obligations.CommandMapIsTotal := by
  have hfull (w : Byte) : w &&& 0xFF#8 = w := BitVec.and_allOnes
  refine ⟨fun w payload => ?_, ?_, rfl, rfl⟩
  · rw [hfull]
    refine ⟨?_, ?_, fun h => ?_, fun h => ?_, fun h0 h1 h2 h3 => ?_⟩
    · rintro rfl
      exact decode_selectModeWord payload
    · rintro rfl
      exact decode_normalizeWord payload
    · obtain ⟨mode, rfl⟩ := (matches_iff w 0b10#2).mp h
      rw [commandWord_mode, decode_encodeWord]
    · obtain ⟨mode, rfl⟩ := (matches_iff w 0b11#2).mp h
      rw [commandWord_mode, decode_decodeWord]
    · cases hd : decodeCommand ⟨w, payload⟩ with
      | error e => exact ⟨e, rfl⟩
      | ok i =>
        obtain ⟨hword, -⟩ := encodesAs_of_decode _ i hd
        rcases hword ▸ encodeInstr_word_matches i with h | h | h | h
        exacts [absurd h h0, absurd h h1, absurd h h2, absurd h h3]
  · have hsplit := List.length_eq_length_filter_add (l := List.range 256)
      (fun w => (decodeTableWord 8 w).isSome)
    simp only [legalTableWords, Option.not_isSome, List.length_range, List.length_cons,
      List.length_nil] at hsplit
    omega

/-- Settles O2: each word evaluated. -/
theorem sampleWordsDecode : Obligations.SampleWordsDecode :=
  ⟨rfl, rfl, rfl, rfl, rfl, rfl, rfl, rfl⟩

/-- Settles O4: the table of the names, and the example line assembled and encoded. -/
theorem assemblerModeNames : Obligations.AssemblerModeNames :=
  ⟨modeCodeOfName_iff, rfl⟩

/-- Settles O5, from the code each mode has and the mode each code names. -/
theorem modeCodesNameTheModes : Obligations.ModeCodesNameTheModes :=
  ⟨ofCode_code, code_of_ofCode, ofCode_eq_none⟩

/-- Settles O6: a code other than 000 is the code of a mode, of which the channels and the pad are read from it. -/
theorem modeCodeIsAChannelMask : Obligations.ModeCodeIsAChannelMask := by
  intro code hne
  obtain ⟨m, hm⟩ := Option.ne_none_iff_exists'.mp (mt (ofCode_eq_none code).mp hne)
  obtain rfl := code_of_ofCode code m hm
  exact ⟨m, hm, chans_eq_bits m, List.ne_nil_of_length_pos (k_pos m), pad_iff_code m⟩

/-- Settles O14, by the checks of R45 on the word's fields. -/
theorem illegalWordReturnsIllegalCommand : Obligations.IllegalWordReturnsIllegalCommand := by
  refine ⟨fun s c rest hhost hbad => ?_, fun c hrsv hmode => ?_, ?_⟩
  · have hill : c.legal ≠ true := by
      rw [Ne, legal_iff]
      rintro ⟨hrsv, hmode⟩
      exact hbad.elim (fun h => h hrsv) (fun ⟨hop, hne⟩ => hne (hmode hop))
    obtain ⟨e, he⟩ := decode_of_illegal c hill
    exact step_of_illegal_command s c rest e hhost he
  · obtain ⟨i, hi, -⟩ := decode_of_legal c ((legal_iff c).mpr ⟨hrsv, hmode⟩)
    exact ⟨i, hi⟩
  · rw [legalTableWords]
    rfl

/-- Settles O15: with either payload the word decodes to the same instruction, which the step performs. -/
theorem strayPayloadIsIgnored : Obligations.StrayPayloadIsIgnored := by
  rintro s t w payload payload' rest hw hs rfl
  obtain ⟨i, hi⟩ : ∃ i, ∀ p, decodeCommand ⟨w, p⟩ = .ok i := by
    rcases hw with rfl | hw
    · exact ⟨.normalize, decode_normalizeWord⟩
    · obtain ⟨mode, rfl⟩ := (matches_iff w 0b11#2).mp hw
      exact ⟨.decode mode, decode_decodeWord mode⟩
  rw [step_of_legal_command s _ rest i hs (hi payload),
    step_of_legal_command _ _ rest i rfl (hi payload')]

/-- Settles O23, by the cases of a status. -/
theorem statusCodes : Obligations.StatusCodes := by
  refine ⟨rfl, rfl, rfl, rfl, rfl, fun st => ?_⟩
  cases st with
  | ok => decide
  | error e => cases e <;> decide

end Sys2Proof.Machine
end

section
/-! SUPPORT. The family of spec/40_mode_select.md: what SELECT_MODE answers, by whether the token spells distinct channels, and the slot map
as a cut of the flat bit stream into byte groups. -/
namespace Sys2Proof.Machine

/-! ## SELECT_MODE, by the letters of the token (R53, R55) -/

/-- A token that spells distinct channels is answered with their mask (R56). -/
theorem exec_selectMode_of_spells (s : State) (token : List Byte) (letters : List Channel)
    (hne : letters ≠ []) (hnd : letters.Nodup) (h : spells token letters) :
    exec (.selectMode token) s
      = .next (s.respond
        { status := .ok, result := some (.mode (tokenMask (letters.map letter))) }) := by
  have hvalid : validToken (foldToken token) = true :=
    (validToken_iff _).mpr ⟨letters, hne, hnd, h⟩
  rw [exec, execSelectMode, if_pos hvalid, h, complete_eq]

/-- Any other token fails (R55). -/
theorem exec_selectMode_of_not_spells (s : State) (token : List Byte)
    (h : ¬ ∃ letters : List Channel, letters ≠ [] ∧ letters.Nodup ∧ spells token letters) :
    exec (.selectMode token) s
      = .next (s.respond { status := .error .invalidChannelFlags, result := none }) := by
  have hinvalid : ¬ validToken (foldToken token) = true := mt (validToken_iff _).mp h
  rw [exec, execSelectMode, if_neg hinvalid, raise_eq]

/-! ## The order of the letters (R56) -/

section Order
variable {folded folded' : List Byte} (h : folded.Perm folded')
include h

theorem validToken_perm : validToken folded = validToken folded' := by
  simp only [validToken, h.length_eq, h.all_eq, h.nodup_iff]

theorem tokenMask_perm : tokenMask folded = tokenMask folded' := by
  induction h with
  | nil => rfl
  | cons x _ ih => rw [tokenMask, tokenMask, ih]
  | swap x y rest => simp only [tokenMask, ← BitVec.or_assoc, BitVec.or_comm (letterMask y)]
  | trans _ _ ih ih' => exact ih.trans ih'

end Order

/-! ## The slot map and the flat bit stream (R61, R83) -/

theorem chans_nodup (m : Mode) : m.chans.Nodup := by cases m <;> decide

/-- The cell of entry `t` of the flat bit stream (R83). -/
def entryCell (m : Mode) (t : Nat) : CellAddr :=
  { pixel := t / m.k, channel := m.chans.getD (t % m.k) .r }

theorem stream_getElem (s : State) (m : Mode) (t : Nat) (h : t < s.n * m.k) :
    (s.stream m)[t]? = some (lsb (s.cell (entryCell m t))) := by
  rw [State.stream, List.getElem?_map, List.getElem?_range h]
  rfl

/-- Slot `j` of group `i` is the cell of entry `G * i + j`: a group's `ppb` pixels hold `G = k * ppb` entries, so whole groups
take nothing from the entry's channel (R61). -/
theorem slot_eq_entryCell (m : Mode) (i j : Nat) : slot m i j = entryCell m (m.groupSize * i + j) := by
  rw [slot, entryCell, groupSize_eq, Nat.mul_assoc, Nat.mul_add_div (k_pos m), Nat.mul_add_mod]

/-- Distinct entries are read from distinct cells: the pixel gives the quotient by `k`, and the channel gives the remainder, a
mode's channels being distinct. -/
theorem entryCell_injective (m : Mode) (t t' : Nat) (h : entryCell m t = entryCell m t') :
    t = t' := by
  obtain ⟨hpixel, hchannel⟩ := CellAddr.mk.inj h
  have hlt (u : Nat) : u % m.k < m.chans.length := Nat.mod_lt u (k_pos m)
  rw [List.getD_eq_getElem _ _ (hlt t), List.getD_eq_getElem _ _ (hlt t'),
    (chans_nodup m).getElem_inj_iff] at hchannel
  rw [← Nat.div_add_mod t m.k, hpixel, hchannel, Nat.div_add_mod]

/-! ## The obligations -/

/-- Settles O10: a slot's cell gives its entry of the stream, whose quotient and remainder by `G` are the byte and the slot. -/
theorem distinctSlotsAreDistinctCells : Obligations.DistinctSlotsAreDistinctCells := by
  intro m i j i' j' hj hj' h
  rw [slot_eq_entryCell, slot_eq_entryCell] at h
  have hentry := entryCell_injective m _ _ h
  have hpos : 0 < m.groupSize := Nat.zero_lt_of_lt hj
  have hi : i = i' := by
    have hdiv := congrArg (· / m.groupSize) hentry
    simpa only [Nat.mul_add_div hpos, Nat.div_eq_of_lt hj, Nat.div_eq_of_lt hj',
      Nat.add_zero] using hdiv
  subst hi
  exact ⟨rfl, Nat.add_left_cancel hentry⟩

/-- Settles O11: a slot is the cell of its entry. -/
theorem streamEntriesAreSlots : Obligations.StreamEntriesAreSlots := by
  intro s m i j _ h
  rw [slot_eq_entryCell, stream_getElem s m _ h]

/-- Settles O30, by whether the token spells distinct channels. -/
theorem selectModeAcceptsLetterPermutations : Obligations.SelectModeAcceptsLetterPermutations :=
  ⟨fun s token letters hne hnd h =>
    ⟨_, exec_selectMode_of_spells s token letters hne hnd h, tokenMask_bit letters⟩,
  exec_selectMode_of_not_spells⟩

/-- Settles O31: SELECT_MODE sees the folded token alone, and of it the validity and the mask, which no permutation changes. -/
theorem selectModeIgnoresCaseAndOrder : Obligations.SelectModeIgnoresCaseAndOrder := by
  intro s token token' h
  simp only [exec, execSelectMode, validToken_perm h, tokenMask_perm h]

/-- Settles O9: the slots of each mode, evaluated. -/
theorem slotLayoutOfEveryFamily : Obligations.SlotLayoutOfEveryFamily := by
  intro i
  simp only [List.forall_mem_cons]
  exact ⟨rfl, ⟨rfl, rfl, rfl, List.forall_mem_nil _⟩, ⟨rfl, rfl, rfl, List.forall_mem_nil _⟩⟩

end Sys2Proof.Machine
end

section
/-! SUPPORT. The family of spec/41_normalize.md: what any instruction leaves of `N` and of a cell, and NORMALIZE on the whole
buffer. -/
namespace Sys2Proof.Machine

/-! ## The instructions that write no cell -/

/-- SELECT_MODE answers a response and changes nothing else (R57). -/
theorem exec_selectMode_responds (token : List Byte) (s : State) :
    ∃ r, exec (.selectMode token) s = .next (s.respond r) := by
  rw [exec, execSelectMode]
  split
  · exact ⟨_, complete_eq _ s⟩
  · exact ⟨_, raise_eq _ s⟩

/-- DECODE answers a response and changes nothing else (R82, R89). -/
theorem exec_decode_responds (code : ModeCode) (s : State) :
    ∃ r, exec (.decode code) s = .next (s.respond r) := by
  cases hm : Mode.ofCode code with
  | none =>
    rw [exec, execDecode, hm]
    exact ⟨_, raise_eq _ s⟩
  | some m =>
    obtain ⟨bits, -, hd⟩ := execDecode_eq code m s hm
    exact ⟨_, hd⟩

/-! ## What an instruction leaves of `N` and of a cell -/

/-- No instruction changes `N` (R13). -/
theorem exec_keeps_n (i : Instr) (s t : State) (h : exec i s = .next t) : t.n = s.n := by
  obtain ⟨r, ht, -⟩ := exec_cases i s t h
  rw [ht]

/-- The three values a cell can hold after an instruction: the old value, the one NORMALIZE writes (R63) or the one ENCODE
writes (R75). -/
theorem exec_cell_cases (i : Instr) (s t : State) (hwf : Memory.wf s.mem) (h : exec i s = .next t)
    (a : CellAddr) :
    t.cell a = s.cell a ∨ t.cell a = clearLsb (s.cell a) ∨ t.cell a = setLsb (s.cell a) := by
  have responded (r : Response) (hr : exec i s = .next (s.respond r)) : t.cell a = s.cell a := by
    rw [hr, Host.Outcome.next.injEq] at h
    rw [← h, respond_cell]
  cases i with
  | selectMode token =>
    obtain ⟨r, hr⟩ := exec_selectMode_responds token s
    exact .inl (responded r hr)
  | normalize =>
    obtain ⟨-, -, -, hcells⟩ := execNormalize_cases s t hwf h
    rw [hcells a]
    split
    · exact .inr (.inl rfl)
    · exact .inl rfl
  | encode code message =>
    rcases execEncode_cases code message s t h with ⟨e, rfl⟩ | ⟨m, -, -, -, -, hmem⟩
    · exact .inl (respond_cell s _ a)
    · obtain ⟨-, -, hcells⟩ := hmem hwf
      rw [hcells a]
      split
      · exact .inr (.inr rfl)
      · exact .inl rfl
  | decode code =>
    obtain ⟨r, hr⟩ := exec_decode_responds code s
    exact .inl (responded r hr)

/-- Clearing bit 0 keeps bits 7 to 1 (R63). -/
theorem clearLsb_upper_bit (v : Byte) (b : Nat) (hb : 1 ≤ b) :
    (clearLsb v).getLsbD b = v.getLsbD b := by
  rw [clearLsb_bit, decide_eq_true (Nat.ne_zero_of_lt hb), Bool.true_and]

/-- Setting bit 0 keeps bits 7 to 1 (R75). -/
theorem setLsb_upper_bit (v : Byte) (b : Nat) (hb : 1 ≤ b) :
    (setLsb v).getLsbD b = v.getLsbD b := by
  rw [setLsb_bit, decide_eq_false (Nat.ne_zero_of_lt hb), Bool.false_or]

/-! ## The obligations -/

/-- Settles O27: each of the three values a cell can hold after an instruction has the old value's bits 7 to 1. -/
theorem onlyBitZeroChanges : Obligations.OnlyBitZeroChanges := by
  intro i s t hwf h a b hb
  rcases exec_cell_cases i s t hwf h a with hold | hcleared | hset
  · rw [hold]
  · rw [hcleared, clearLsb_upper_bit _ b hb]
  · rw [hset, setLsb_upper_bit _ b hb]

/-- Settles O32: NORMALIZE completes, like every command, and what it leaves then is the whole state answered. -/
theorem normalizeClearsEveryBitZero : Obligations.NormalizeClearsEveryBitZero := by
  intro s hwf
  obtain ⟨t, ht⟩ := everyCommandCompletes .normalize s
  obtain ⟨hanswer, -, -, hcells⟩ := execNormalize_cases s t hwf ht
  exact ⟨t.mem, ht.trans (congrArg Host.Outcome.next hanswer), hcells⟩

/-- Settles O33: the cells of the buffer, and `N` with them, are those of before, each one cleared. -/
theorem normalizeLeavesTheBaseline : Obligations.NormalizeLeavesTheBaseline := by
  intro s t hwf h a ha
  obtain ⟨-, -, -, hcells⟩ := execNormalize_cases s t hwf h
  rw [exec_keeps_n _ s t h] at ha
  rw [hcells a, if_pos ha, lsb_clearLsb]

/-- Settles O34: both memories are canonical, and clearing a cleared cell again leaves it as it is, so they hold the same
cells. -/
theorem normalizeIsIdempotent : Obligations.NormalizeIsIdempotent := by
  intro s t u hwf ht hu
  obtain ⟨-, hwf', -, hcells⟩ := execNormalize_cases s t hwf ht
  obtain ⟨-, hwf'', -, hcells'⟩ := execNormalize_cases t u hwf' hu
  refine ⟨memory_ext_cells u t hwf'' hwf' fun a => ?_, exec_keeps_n _ t u hu⟩
  rw [hcells' a, exec_keeps_n _ s t ht]
  split
  · rename_i ha
    rw [hcells a, if_pos ha, clearLsb_idem]
  · rfl

end Sys2Proof.Machine
end

section
/-! SUPPORT. The family of spec/42_encode.md: ENCODE as a plan, made of the parameters, `N`, the mode code and the message alone, and
the walk that sets the plan's cells. The statements about errors and counts are about the plan's response, those about the buffer about
its cells. -/
namespace Sys2Proof.Machine

/-! ## The plan of an ENCODE -/

/-- What an ENCODE is to do: the response it answers and the cells in which it sets bit 0. -/
structure EncodePlan where
  /-- The response (R48, R97). -/
  response : Response
  /-- The cells to set; a failed ENCODE has none (R69). -/
  cells : List CellAddr

/-- The plan of an ENCODE, whatever the buffer holds (R67, R69). -/
def encodePlan (cfg : Config) (n : Nat) (code : ModeCode) (message : List Byte) : EncodePlan :=
  match Mode.ofCode code with
  | none => { response := { status := .error .invalidChannelFlags, result := none }, cells := [] }
  | some m =>
    match encodeError cfg.errOrder (badMessage message) (overCapacity n m message) with
    | some e => { response := { status := .error e, result := none }, cells := [] }
    | none =>
      { response := { status := .ok, result := some (.pixels (consumed cfg.consumedCount m message)) }
        cells := messageOnes m message }

section Plan
variable {cfg : Config} {n : Nat} {code : ModeCode} {m : Mode} {message : List Byte}

theorem encodePlan_of_no_mode (hm : Mode.ofCode code = none) :
    encodePlan cfg n code message
      = { response := { status := .error .invalidChannelFlags, result := none }, cells := [] } := by
  simp only [encodePlan, hm]

theorem encodePlan_of_error (hm : Mode.ofCode code = some m) {e : Error}
    (he : encodeError cfg.errOrder (badMessage message) (overCapacity n m message) = some e) :
    encodePlan cfg n code message
      = { response := { status := .error e, result := none }, cells := [] } := by
  simp only [encodePlan, hm, he]

theorem encodePlan_of_no_error (hm : Mode.ofCode code = some m)
    (he : encodeError cfg.errOrder (badMessage message) (overCapacity n m message) = none) :
    encodePlan cfg n code message
      = { response :=
            { status := .ok, result := some (.pixels (consumed cfg.consumedCount m message)) }
          cells := messageOnes m message } := by
  simp only [encodePlan, hm, he]

/-- A plan sets only cells that carry a 1 bit of the message (R79). -/
theorem carriesOne_of_mem_encodePlan (hm : Mode.ofCode code = some m) {a : CellAddr}
    (ha : a ∈ (encodePlan cfg n code message).cells) : carriesOne m message a := by
  cases he : encodeError cfg.errOrder (badMessage message) (overCapacity n m message) with
  | some e =>
    rw [encodePlan_of_error hm he] at ha
    exact absurd ha List.not_mem_nil
  | none =>
    rw [encodePlan_of_no_error hm he] at ha
    exact (mem_messageOnes m message a).mp ha

/-- A plan that answers a count answers `Consumed(m, M)` (R78). -/
theorem count_of_encodePlan (hm : Mode.ofCode code = some m) {count : Nat}
    (h : (encodePlan cfg n code message).response
      = { status := .ok, result := some (.pixels count) }) :
    count = consumed cfg.consumedCount m message := by
  cases he : encodeError cfg.errOrder (badMessage message) (overCapacity n m message) with
  | some e =>
    rw [encodePlan_of_error hm he] at h
    cases h
  | none =>
    rw [encodePlan_of_no_error hm he] at h
    cases h
    rfl

/-- A plan sets only cells of the buffer (R35). -/
theorem encodePlan_pixel_lt : ∀ a ∈ (encodePlan cfg n code message).cells, a.pixel < n := by
  cases hm : Mode.ofCode code with
  | none => rw [encodePlan_of_no_mode hm]; exact List.forall_mem_nil _
  | some m =>
    cases he : encodeError cfg.errOrder (badMessage message) (overCapacity n m message) with
    | some e => rw [encodePlan_of_error hm he]; exact List.forall_mem_nil _
    | none =>
      rw [encodePlan_of_no_error hm he]
      exact messageOnes_pixel_lt n m message ((encodeError_eq_none _ _ _).mp he).2

end Plan

/-! ## ENCODE performs its plan -/

/-- ENCODE walks its plan's cells and answers its plan's response. -/
theorem exec_encode_performs_plan (s : State) (code : ModeCode) (message : List Byte) :
    ∃ mem, s.modifyCells setLsb (encodePlan s.cfg s.n code message).cells = .ok { s with mem := mem } ∧
      exec (.encode code message) s
        = .next (({ s with mem := mem } : State).respond
            (encodePlan s.cfg s.n code message).response) := by
  cases hm : Mode.ofCode code with
  | none =>
    rw [encodePlan_of_no_mode hm]
    exact ⟨s.mem, rfl, by simp only [exec, execEncode, hm, raise_eq]⟩
  | some m =>
    cases he : encodeError s.cfg.errOrder (badMessage message) (overCapacity s.n m message) with
    | some e =>
      rw [encodePlan_of_error hm he]
      exact ⟨s.mem, rfl, by simp only [exec, execEncode, hm, he, raise_eq]⟩
    | none =>
      rw [encodePlan_of_no_error hm he]
      obtain ⟨mem, hwalk⟩ := encode_walk s m message ((encodeError_eq_none _ _ _).mp he).2
      exact ⟨mem, hwalk, by simp only [exec, execEncode, hm, he, hwalk, complete_eq]⟩

/-- Where the plan has no cell, ENCODE changes nothing but the response. -/
theorem exec_encode_of_no_cells (s : State) (code : ModeCode) (message : List Byte) (r : Response)
    (h : encodePlan s.cfg s.n code message = { response := r, cells := [] }) :
    exec (.encode code message) s = .next (s.respond r) := by
  obtain ⟨mem, hwalk, hexec⟩ := exec_encode_performs_plan s code message
  rw [h] at hwalk hexec
  rw [hexec, ← Except.ok.inj hwalk]

/-- A mode with one of the two conditions of ENCODE: the error it gives is answered, and nothing is written (R69, R98). -/
theorem exec_encode_of_error (s : State) (code : ModeCode) (m : Mode) (message : List Byte) (e : Error)
    (hm : Mode.ofCode code = some m)
    (he : encodeError s.cfg.errOrder (badMessage message) (overCapacity s.n m message) = some e) :
    exec (.encode code message) s = .next (s.respond { status := .error e, result := none }) :=
  exec_encode_of_no_cells s code message _ (encodePlan_of_error hm he)

section Performed
variable {s t : State} {code : ModeCode} {message : List Byte}
  (h : exec (.encode code message) s = .next t)
include h

/-- ENCODE answers its plan's response and changes no other field but the memory. -/
theorem encode_frame :
    t = { s with mem := t.mem, returned := s.returned ++
      [(encodePlan s.cfg s.n code message).response] } := by
  obtain ⟨mem, -, hexec⟩ := exec_encode_performs_plan s code message
  rw [hexec, Host.Outcome.next.injEq] at h
  subst h
  rfl

/-- The plan of an ENCODE is the same after an ENCODE: `N` and the parameters are. -/
theorem encodePlan_after_encode (code' : ModeCode) (message' : List Byte) :
    encodePlan t.cfg t.n code' message' = encodePlan s.cfg s.n code' message' := by
  rw [encode_frame h]

/-- The buffer after ENCODE, from a canonical memory: canonical again, with bit 0 of the plan's cells set (R79). -/
theorem encode_cells (hwf : Memory.wf s.mem) :
    Memory.wf t.mem ∧ ∀ a, t.cell a
      = if a ∈ (encodePlan s.cfg s.n code message).cells then setLsb (s.cell a) else s.cell a := by
  obtain ⟨mem, hwalk, hexec⟩ := exec_encode_performs_plan s code message
  obtain ⟨-, hwf', -, hcells⟩ := modifyCells_spec setLsb setLsb_idem _ s _ hwf encodePlan_pixel_lt hwalk
  rw [hexec, Host.Outcome.next.injEq] at h
  subst h
  exact ⟨hwf', hcells⟩

end Performed

/-! ## The two conditions of ENCODE (R70 to R72) -/

theorem overCapacity_eq_true (n : Nat) (m : Mode) (message : List Byte) :
    overCapacity n m message = true ↔ capacity n m < message.length + 1 := decide_eq_true_iff

theorem overCapacity_eq_false (n : Nat) (m : Mode) (message : List Byte) :
    overCapacity n m message = false ↔ message.length + 1 ≤ capacity n m :=
  decide_eq_false_iff_not.trans Nat.not_lt

theorem badByte_eq_true (x : Byte) : badByte x = true ↔ x.toNat = 0 ∨ 0x7F < x.toNat := by
  revert x; decide

theorem badMessage_eq_true (message : List Byte) :
    badMessage message = true ↔ ∃ x ∈ message, x.toNat = 0 ∨ 0x7F < x.toNat := by
  simp only [badMessage, List.any_eq_true, badByte_eq_true]

theorem encodeError_badByte (order : ErrOrder) (tooLong : Bool)
    (h : tooLong = false ∨ order = .byteFirst) :
    encodeError order true tooLong = some .undefinedByteEncoding := by
  rcases h with rfl | rfl
  · cases order <;> rfl
  · rfl

theorem encodeError_tooLong (order : ErrOrder) (bad : Bool)
    (h : bad = false ∨ order = .capacityFirst) :
    encodeError order bad true = some .encodingCapacityExceeded := by
  rcases h with rfl | rfl
  · cases order <;> rfl
  · rfl

/-- A valid message that fits raises nothing (R67). -/
theorem encodeError_of_fits (order : ErrOrder) (n : Nat) (m : Mode) (message : List Byte)
    (hvalid : validMessage message) (hfit : message.length + 1 ≤ capacity n m) :
    encodeError order (badMessage message) (overCapacity n m message) = none :=
  (encodeError_eq_none _ _ _).mpr
    ⟨(badMessage_eq_false message).mpr hvalid, (overCapacity_eq_false n m message).mpr hfit⟩

/-- The capacity error of a message without a bad byte, under either `ERR_ORDER` (R70). -/
theorem exec_encode_tooLong (s : State) (code : ModeCode) (m : Mode) (message : List Byte)
    (hm : Mode.ofCode code = some m) (hvalid : validMessage message)
    (hlong : capacity s.n m < message.length + 1) :
    exec (.encode code message) s
      = .next (s.respond { status := .error .encodingCapacityExceeded, result := none }) := by
  refine exec_encode_of_error s code m message _ hm ?_
  rw [(overCapacity_eq_true s.n m message).mpr hlong]
  exact encodeError_tooLong _ _ (.inl ((badMessage_eq_false message).mpr hvalid))

/-! ## The slots that carry a 1 bit (R62, R73, R74) -/

/-- A data slot carries a 1 bit exactly when its own message bit is 1: no other slot of the message is its cell. -/
theorem carriesOne_slot_iff (m : Mode) (message : List Byte) (i j : Nat) (byte : Byte)
    (hi : message[i]? = some byte) (hj : j ≤ 7) :
    carriesOne m message (slot m i j) ↔ byte.getLsbD (7 - j) = true := by
  have hG := groupSize_ge m
  constructor
  · rintro ⟨i', byte', j', hi', hj', hbit, hslot⟩
    obtain ⟨rfl, rfl⟩ := distinctSlotsAreDistinctCells m i j i' j' (by omega) (by omega) hslot
    obtain rfl : byte = byte' := Option.some.inj (hi.symm.trans hi')
    exact hbit
  · exact fun hbit => ⟨i, byte, j, hi, hj, hbit, rfl⟩

/-- The pad of a group carries no message bit: it is no data slot (R62). -/
theorem not_carriesOne_pad (message : List Byte) (i : Nat) : ¬ carriesOne .rgb message (slot .rgb i 8) := by
  rintro ⟨i', byte, j, -, hj, -, hslot⟩
  have hG : Mode.rgb.groupSize = 9 := rfl
  have hj8 := (distinctSlotsAreDistinctCells .rgb i 8 i' j (by omega) (by omega) hslot).2
  omega

/-- A slot lies in a channel of its mode (R61). -/
theorem slot_channel_mem (m : Mode) (i j : Nat) : (slot m i j).channel ∈ m.chans := by
  have hlt : j % m.k < m.chans.length := Nat.mod_lt j (k_pos m)
  rw [slot, List.getD_eq_getElem _ _ hlt]
  exact List.getElem_mem hlt

theorem carriesOne_channel_mem (m : Mode) (message : List Byte) (a : CellAddr)
    (h : carriesOne m message a) : a.channel ∈ m.chans := by
  obtain ⟨i, byte, j, -, -, -, rfl⟩ := h
  exact slot_channel_mem m i j

/-! ## ENCODE of a message that fits -/

/-- The closed form of ENCODE on a next state: bit 0 is set in the cells that carry a 1 bit, and all other cells are as
before (R79). -/
theorem encode_cell_of_fits {s t : State} {code : ModeCode} {m : Mode} {message : List Byte}
    (hwf : Memory.wf s.mem) (hm : Mode.ofCode code = some m) (hvalid : validMessage message)
    (hfit : message.length + 1 ≤ capacity s.n m) (h : exec (.encode code message) s = .next t)
    (a : CellAddr) :
    (carriesOne m message a → t.cell a = setLsb (s.cell a)) ∧
      (¬ carriesOne m message a → t.cell a = s.cell a) := by
  rw [(encode_cells h hwf).2 a, encodePlan_of_no_error hm (encodeError_of_fits _ _ _ _ hvalid hfit),
    ← mem_messageOnes]
  exact ⟨fun hin => if_pos hin, fun hout => if_neg hout⟩

/-- A data slot of a message that fits is a cell of the buffer (R35). -/
theorem slot_pixel_lt_of_fits (n : Nat) (m : Mode) (message : List Byte) (i j : Nat)
    (hfit : message.length + 1 ≤ capacity n m) (hi : i < message.length) (hj : j ≤ 7) :
    (slot m i j).pixel < n := by
  have hG := groupSize_ge m
  calc (slot m i j).pixel < m.ppb * (i + 1) := (slot_pixel_bounds m i j (by omega)).2
    _ ≤ m.ppb * message.length := Nat.mul_le_mul_left _ hi
    _ = message.length * m.ppb := Nat.mul_comm _ _
    _ ≤ n := region_le_of_fits n m message ((overCapacity_eq_false n m message).mpr hfit)

/-- The empty message consumes no pixel, under either value of `CONSUMED_COUNT` (R80). -/
theorem consumed_nil (count : ConsumedCount) (m : Mode) : consumed count m [] = 0 := by
  cases count with
  | spanned => exact Nat.zero_mul m.ppb
  | modified => rfl

theorem or_setLsb (v : Byte) : v ||| setLsb v = setLsb v := by
  rw [setLsb, ← BitVec.or_assoc, BitVec.or_self]

/-! ## The obligations -/

/-- Settles O36, by the error each condition gives when the other does not hold or `ERR_ORDER` puts it second. -/
theorem encodeReportsItsErrors : Obligations.EncodeReportsItsErrors := by
  intro s code m message hm
  constructor
  · intro hbad hcond
    refine exec_encode_of_error s code m message _ hm ?_
    rw [(badMessage_eq_true message).mpr hbad]
    exact encodeError_badByte _ _ (hcond.imp_left (overCapacity_eq_false s.n m message).mpr)
  · intro hlong hcond
    refine exec_encode_of_error s code m message _ hm ?_
    rw [(overCapacity_eq_true s.n m message).mpr hlong]
    refine encodeError_tooLong _ _ (hcond.imp_left fun hgood => ?_)
    exact (badMessage_eq_false message).mpr fun x hx =>
      ⟨Nat.pos_of_ne_zero (hgood x hx).1, (hgood x hx).2⟩

/-- Settles O37: the message fits and raises nothing, or it is too long and that is its only error. -/
theorem encodeCapacityBoundary : Obligations.EncodeCapacityBoundary := by
  intro s code m message hm hvalid
  refine ⟨fun hfit => ?_, exec_encode_tooLong s code m message hm hvalid⟩
  obtain ⟨mem, -, hexec⟩ := exec_encode_performs_plan s code message
  rw [encodePlan_of_no_error hm (encodeError_of_fits _ _ _ _ hvalid hfit)] at hexec
  exact ⟨mem, _, hexec⟩

/-- Settles O38: ENCODE completes at this length, and the cells are those of the closed form. -/
theorem encodeClosedForm : Obligations.EncodeClosedForm := by
  intro s code m message hwf hm hvalid hfit
  obtain ⟨mem, count, hexec⟩ := (encodeCapacityBoundary s code m message hm hvalid).1 hfit
  exact ⟨mem, count, hexec, encode_cell_of_fits hwf hm hvalid hfit hexec⟩

/-- Settles O39: a cell that carries a 1 bit is set, and each other cell of the buffer still has the bit 0 of the baseline. -/
theorem encodeOnBaselineStoresTheMessage : Obligations.EncodeOnBaselineStoresTheMessage := by
  intro s t code m message hwf hbase hm hvalid hfit h
  have hcell := encode_cell_of_fits hwf hm hvalid hfit h
  have unset (a : CellAddr) (ha : a.pixel < s.n) (hc : ¬ carriesOne m message a) :
      lsb (t.cell a) = false := by
    rw [(hcell a).2 hc, hbase a ha]
  constructor
  · intro i j byte hi hj
    have hiff := carriesOne_slot_iff m message i j byte hi hj
    cases hbit : byte.getLsbD (7 - j) with
    | true => rw [(hcell _).1 (hiff.mpr hbit), lsb_setLsb]
    | false =>
      have hlt : i < message.length := (List.getElem?_eq_some_iff.mp hi).1
      refine unset _ (slot_pixel_lt_of_fits s.n m message i j hfit hlt hj) fun hc => ?_
      exact Bool.false_ne_true (hbit.symm.trans (hiff.mp hc))
  · intro a ha hother
    refine unset a ha ?_
    rintro ⟨i, byte, j, hi, hj, -, hslot⟩
    exact hother i j (List.getElem?_eq_some_iff.mp hi).1 hj hslot

/-- Settles O40: both ENCODEs have the same plan, and setting bit 0 again changes no cell. -/
theorem encodeTwiceIsEncodeOnce : Obligations.EncodeTwiceIsEncodeOnce := by
  intro s t u code message hwf ht hu
  obtain ⟨hwf', hcells⟩ := encode_cells ht hwf
  obtain ⟨hwf'', hcells'⟩ := encode_cells hu hwf'
  refine memory_ext_cells u t hwf'' hwf' fun a => ?_
  rw [hcells' a, encodePlan_after_encode ht, hcells a]
  split
  · rw [setLsb_idem]
  · rfl

/-- Settles O41: the count answered is `Consumed(m, M)`, whose list of pixels without repetition is the set of the pixels of the
1 bits. -/
theorem encodeCountsItsPixels : Obligations.EncodeCountsItsPixels := by
  intro s t code m message count hm h hreturned
  have hresponse : (encodePlan s.cfg s.n code message).response
      = { status := .ok, result := some (.pixels count) } := by
    rw [congrArg State.returned (encode_frame h)] at hreturned
    exact List.singleton_inj.mp (List.append_cancel_left hreturned)
  have hcount := count_of_encodePlan hm hresponse
  constructor
  · intro hspanned
    rw [hcount, hspanned, consumed]
  · intro hmodified
    refine ⟨((messageOnes m message).map CellAddr.pixel).toFinset, ?_, fun p => ?_⟩
    · rw [hcount, hmodified, consumed, List.card_toFinset]
    · simp only [List.mem_toFinset, List.mem_map, mem_messageOnes]

/-- Settles O42: none of these cells carries a 1 bit of the message, so it is in no plan of the mode. -/
theorem encodeNeverWritesTheseCells : Obligations.EncodeNeverWritesTheseCells := by
  intro s t code m message hwf hm h a hkind
  have hnot : ¬ carriesOne m message a := by
    rcases hkind with ⟨rfl, i, rfl⟩ | hchannel | hpixel | ⟨i, j, byte, hi, hj, hbit, rfl⟩
    · exact not_carriesOne_pad message i
    · exact mt (carriesOne_channel_mem m message a) hchannel
    · exact fun hc => Nat.not_le.mpr (carriesOne_pixel_lt m message a hc) hpixel
    · rw [carriesOne_slot_iff m message i j byte hi hj, hbit]
      exact Bool.false_ne_true
  rw [(encode_cells h hwf).2 a, if_neg (mt (carriesOne_of_mem_encodePlan hm) hnot)]

/-- Settles O44: the response is the plan's, and the plan reads no memory. -/
theorem encodeResponseReadsNoCell : Obligations.EncodeResponseReadsNoCell := by
  intro s s' t t' code message hn hcfg h h'
  have hreturned' := congrArg State.returned (encode_frame h')
  rw [hn, hcfg] at hreturned'
  exact ⟨_, congrArg State.returned (encode_frame h), hreturned'⟩

/-- Settles O45: the second plan is the same with and without the first ENCODE, so each cell is set by both plans, by one of them
or by none. -/
theorem reEncodingOrsThePatterns : Obligations.ReEncodingOrsThePatterns := by
  intro s t u v code code' message message' hwf ht hu hv a
  obtain ⟨hwf', hcells⟩ := encode_cells ht hwf
  rw [(encode_cells hu hwf').2 a, encodePlan_after_encode ht, (encode_cells hv hwf).2 a, hcells a]
  by_cases hfirst : a ∈ (encodePlan s.cfg s.n code message).cells <;>
    by_cases hsecond : a ∈ (encodePlan s.cfg s.n code' message').cells
  · rw [if_pos hfirst, if_pos hsecond, if_pos hsecond, setLsb_idem, BitVec.or_self]
  · rw [if_pos hfirst, if_neg hsecond, if_neg hsecond, BitVec.or_comm, or_setLsb]
  · rw [if_neg hfirst, if_pos hsecond, or_setLsb]
  · rw [if_neg hfirst, if_neg hsecond, BitVec.or_self]

/-- Settles O35: the plan for code `000`. -/
theorem encodeWithCodeZeroRaises : Obligations.EncodeWithCodeZeroRaises := fun s message =>
  exec_encode_of_no_cells s _ message _ (encodePlan_of_no_mode ofCode_zero)

/-- Settles O43: the empty message is valid, its plan has no cell, and it fits exactly when the capacity is not 0. -/
theorem encodeOfTheEmptyMessage : Obligations.EncodeOfTheEmptyMessage := by
  intro s code m hm
  have hvalid : validMessage [] := List.forall_mem_nil _
  constructor
  · intro hfit
    refine exec_encode_of_no_cells s code [] _ ?_
    rw [encodePlan_of_no_error hm (encodeError_of_fits _ _ _ _ hvalid hfit), consumed_nil]
    rfl
  · intro hzero
    exact exec_encode_tooLong s code m [] hm hvalid (hzero ▸ Nat.zero_lt_one)

end Sys2Proof.Machine
end

section
/-! SUPPORT. The family of spec/43_decode.md: where a scan stops and what DECODE answers there, the zero windows of a message stream by
the zeros at the ends of adjacent bytes, and the stream that ENCODE leaves on the baseline. -/
namespace Sys2Proof.Machine

/-! ## Zero windows and the place where a scan stops (R84) -/

/-- A zero window by its first entry. -/
theorem zeroWindowAt_iff (bits : List Bool) (w : Nat) :
    zeroWindowAt bits (w + 7) ↔ ∀ x, x < 8 → bits[w + x]? = some false := by
  constructor
  · rintro ⟨-, hlen, hzero⟩ x hx
    have hentry := hzero (7 - x) (by omega)
    rw [show w + 7 - (7 - x) = w + x by omega, List.getD_eq_getElem _ _ (by omega)] at hentry
    rw [List.getElem?_eq_getElem (by omega), hentry]
  · intro hzero
    have hlen : w + 7 < bits.length := (List.getElem?_eq_some_iff.mp (hzero 7 (by omega))).1
    refine ⟨by omega, hlen, fun d hd => ?_⟩
    rw [List.getD_eq_getElem?_getD, show w + 7 - d = w + (7 - d) by omega, hzero (7 - d) (by omega)]
    rfl

/-- A window inside the first part of a stream is a window of that part. -/
theorem zeroWindowAt_append (bits rest : List Bool) (e : Nat) (he : e < bits.length) :
    zeroWindowAt (bits ++ rest) e ↔ zeroWindowAt bits e := by
  have hentry (d : Nat) : (bits ++ rest).getD (e - d) true = bits.getD (e - d) true :=
    List.getD_append _ _ _ _ (by omega)
  simp only [zeroWindowAt, hentry, he, List.length_append, Nat.lt_add_right _ he]

/-- A scan stops in one place only: the window that ends one scan ends every other at the same entry. -/
theorem scanStops_unique {bits : List Bool} {len len' : Nat} (h : scanStops bits len)
    (h' : scanStops bits len') : len = len' := by
  obtain ⟨hle, hnone, hend⟩ := h
  obtain ⟨hle', hnone', hend'⟩ := h'
  rcases Nat.lt_trichotomy len len' with hlt | heq | hgt
  · obtain ⟨hpos, hwindow⟩ := hend.resolve_left (by omega)
    exact absurd hwindow (hnone' _ (by omega))
  · exact heq
  · obtain ⟨hpos, hwindow⟩ := hend'.resolve_left (by omega)
    exact absurd hwindow (hnone _ (by omega))

/-- DECODE's scan answers the stream up to a place where it stops. -/
theorem exists_scanStops (s : State) (m : Mode) :
    ∃ len, scanStops (s.stream m) len ∧
      s.scan (streamCells m s.n) [] = .ok ((s.stream m).take len) := by
  obtain ⟨len, hle, hscan, hnone, hend⟩ := scan_stream s m
  refine ⟨len, ⟨hle, fun e he hwindow => ?_, hend.imp_right fun htest => ?_⟩, hscan⟩
  · have hpass := (sentinel_take (s.stream m) e (by omega)).mpr hwindow
    rw [hnone (e + 1) (by omega)] at hpass
    exact Bool.false_ne_true hpass
  · cases len with
    | zero => exact absurd htest Bool.false_ne_true
    | succ e => exact ⟨Nat.succ_pos e, (sentinel_take (s.stream m) e hle).mp htest⟩

/-! ## What DECODE answers (R81) -/

/-- A whole group ends within the entries read (R85). -/
theorem group_le_of_lt_div {G g len : Nat} (h : g < len / G) : G * g + G ≤ len :=
  (Nat.mul_le_mul_left G h).trans (Nat.mul_div_le len G)

/-- The group of a byte of the message ends within the groups of the message. -/
theorem group_le_of_lt {i l : Nat} (G : Nat) (h : i < l) : G * i + G ≤ G * l := Nat.mul_le_mul_left G h

section Decoded
variable {s : State} {code : ModeCode} {m : Mode} {len : Nat}
  (hm : Mode.ofCode code = some m) (hstop : scanStops (s.stream m) len)
include hm hstop

/-- DECODE regroups the entries up to the place where its scan stops. -/
theorem exec_decode_of_scanStops :
    exec (.decode code) s = .next (s.respond
      { status := .ok, result := some (.message (outputBytes m ((s.stream m).take len))) }) := by
  obtain ⟨len', hstop', hscan⟩ := exists_scanStops s m
  obtain ⟨bits, hscan', hexec⟩ := execDecode_eq code m s hm
  rw [hscan, Except.ok.injEq] at hscan'
  rw [exec, hexec, ← hscan', scanStops_unique hstop hstop']

theorem decode_output_eq {out : List Byte}
    (h : exec (.decode code) s = .next (s.respond { status := .ok, result := some (.message out) })) :
    out = outputBytes m ((s.stream m).take len) := by
  rw [exec_decode_of_scanStops hm hstop, Host.Outcome.next.injEq, respond_inj] at h
  cases h
  rfl

end Decoded

/-- An entry read by the scan is the entry of the stream. -/
theorem getElem?_eq_getD_take (bits : List Bool) (len t : Nat) (hlen : len ≤ bits.length) (ht : t < len) :
    bits[t]? = some ((bits.take len).getD t false) := by
  rw [List.getD_eq_getElem _ _ (by rw [List.length_take]; omega), List.getElem_take]
  exact List.getElem?_eq_getElem _

/-- DECODE's output, entry by entry of the stream scanned (R85 to R88). -/
theorem outputBytes_take (m : Mode) (bits : List Bool) (len : Nat) (hlen : len ≤ bits.length) :
    (outputBytes m (bits.take len)).length ≤ len / m.groupSize ∧
      (∀ g byte, (outputBytes m (bits.take len))[g]? = some byte → byte ≠ 0#8 ∧
        ∀ e, e ≤ 7 → bits[m.groupSize * g + e]? = some (byte.getLsbD (7 - e))) ∧
      ((outputBytes m (bits.take len)).length = len / m.groupSize ∨
        ∀ e, e ≤ 7 →
          bits[m.groupSize * (outputBytes m (bits.take len)).length + e]? = some false) := by
  have hG := groupSize_ge m
  obtain ⟨hle, hbytes, hend⟩ := outputBytes_spec m (bits.take len)
  rw [List.length_take, Nat.min_eq_left hlen] at hle hend
  have entry (g e : Nat) (hg : g < len / m.groupSize) (he : e ≤ 7) :
      bits[m.groupSize * g + e]? = some ((bits.take len).getD (m.groupSize * g + e) false) := by
    refine getElem?_eq_getD_take bits len _ hlen ?_
    have hgroup := group_le_of_lt_div hg
    omega
  refine ⟨hle, fun g byte hg => ?_, ?_⟩
  · obtain ⟨hbyte, hne⟩ := hbytes g byte hg
    have hlt : g < len / m.groupSize := (List.getElem?_eq_some_iff.mp hg).1.trans_le hle
    exact ⟨hne, fun e he => by rw [entry g e hlt he, hbyte, byteAt_bit _ _ _ he]⟩
  · rcases hle.lt_or_eq with hlt | heq
    · right
      intro e he
      rw [entry _ e hlt he, (byteAt_eq_zero _ _).mp (hend.resolve_left hlt.ne) e he]
    · exact .inl heq

/-- A zero byte ends the output only when the scan stopped with exactly its group, which has no pad: its entries are a zero window,
and a window that ends before the last entry read would have stopped the scan (R94). -/
theorem short_output (m : Mode) (bits : List Bool) (len : Nat) (hstop : scanStops bits len)
    (h : (outputBytes m (bits.take len)).length < len / m.groupSize) :
    m.groupSize = 8 ∧ len = 8 * ((outputBytes m (bits.take len)).length + 1) ∧
      zeroWindowAt bits (len - 1) := by
  obtain ⟨hle, hnone, -⟩ := hstop
  obtain ⟨-, -, hend⟩ := outputBytes_take m bits len hle
  have hzero := hend.resolve_left h.ne
  generalize (outputBytes m (bits.take len)).length = n at h hzero ⊢
  have hwindow : zeroWindowAt bits (m.groupSize * n + 7) :=
    (zeroWindowAt_iff bits _).mpr fun x hx => hzero x (by omega)
  have hlast : ¬ m.groupSize * n + 7 < len - 1 := fun hlt => hnone _ hlt hwindow
  have hgroup := group_le_of_lt_div h
  have hG : m.groupSize = 8 := by have := groupSize_ge m; omega
  rw [hG] at hwindow hlast hgroup
  obtain rfl : len = 8 * (n + 1) := by omega
  exact ⟨hG, rfl, hwindow⟩

/-! ## The zeros at the ends of a byte (R92) -/

/-- `takeWhile` keeps the first `r` entries exactly when all of them pass. -/
theorem le_length_takeWhile_iff (p : Nat → Bool) (l : List Nat) (r : Nat) (hr : r ≤ l.length) :
    r ≤ (l.takeWhile p).length ↔ ∀ x ∈ l.take r, p x = true := by
  induction l generalizing r with
  | nil => simpa using hr
  | cons y rest ih =>
    cases r with
    | zero => simp
    | succ r =>
      have hrest := ih r (by simpa using hr)
      by_cases hy : p y = true
      · simp [List.takeWhile_cons_of_pos hy, hrest, hy]
      · simp [List.takeWhile_cons_of_neg hy, hy]

theorem le_trailingZeros_iff (x : Byte) (r : Nat) (hr : r ≤ 8) :
    r ≤ trailingZeros x ↔ ∀ q, q < r → x.getLsbD q = false := by
  rw [trailingZeros, le_length_takeWhile_iff _ _ _ (by simpa using hr), List.take_range,
    Nat.min_eq_left hr]
  simp only [List.mem_range, Bool.not_eq_true']

theorem le_leadingZeros_iff (x : Byte) (r : Nat) (hr : r ≤ 8) :
    r ≤ leadingZeros x ↔ ∀ q, q < r → x.getLsbD (7 - q) = false := by
  rw [leadingZeros, le_length_takeWhile_iff _ _ _ (by simpa using hr), List.take_range,
    Nat.min_eq_left hr]
  simp only [List.mem_range, Bool.not_eq_true']

/-- A valid byte has a 1 among its bits 6 to 0. -/
theorem trailingZeros_le_of_valid (x : Byte) (h : 1 ≤ x.toNat ∧ x.toNat ≤ 127) :
    trailingZeros x ≤ 6 := by
  revert x; decide

/-- A group is a byte and, in RGB mode, the pad (R17). -/
theorem groupSize_eq_pad (m : Mode) : m.groupSize = 8 + if m = .rgb then 1 else 0 := by
  cases m <;> rfl

theorem groupSize_le (m : Mode) : m.groupSize ≤ 9 := by cases m <;> decide

/-! ## Zero windows of a message stream (R92) -/

section Windows
variable {m : Mode} {message : List Byte} {i o : Nat}

/-- The byte in which a window begins has only zeros from there on. -/
theorem le_trailingZeros_of_zeroWindowAt {a : Byte} (hi : message[i]? = some a)
    (h : zeroWindowAt (messageStream m message) (m.groupSize * i + o + 7)) :
    8 - o ≤ trailingZeros a := by
  have hG := groupSize_ge m
  refine (le_trailingZeros_iff a _ (by omega)).mpr fun q hq => ?_
  have hentry := (zeroWindowAt_iff _ _).mp h (7 - q - o) (by omega)
  rw [show m.groupSize * i + o + (7 - q - o) = m.groupSize * i + (7 - q) by omega,
    messageStream_getElem m message i _ a hi (by omega)] at hentry
  simpa [show 7 - (7 - q) = q by omega] using hentry

/-- The byte in which a window ends has only zeros up to there. -/
theorem le_leadingZeros_of_zeroWindowAt {b : Byte} (hi : message[i + 1]? = some b)
    (ho : o < m.groupSize)
    (h : zeroWindowAt (messageStream m message) (m.groupSize * i + o + 7)) :
    o + 8 - m.groupSize ≤ leadingZeros b := by
  have hG := groupSize_ge m
  refine (le_leadingZeros_iff b _ (by omega)).mpr fun q hq => ?_
  have hentry := (zeroWindowAt_iff _ _).mp h (m.groupSize + q - o) (by omega)
  rw [show m.groupSize * i + o + (m.groupSize + q - o) = m.groupSize * (i + 1) + q by
      rw [Nat.mul_succ]; omega,
    messageStream_getElem m message (i + 1) q b hi (by omega)] at hentry
  simpa [show q ≤ 7 by omega] using hentry

/-- The zeros at the end of a byte, the pad and the zeros at the start of the next byte make a window if there are enough. -/
theorem zeroWindowAt_of_zeros {a b : Byte} (ha : message[i]? = some a) (hb : message[i + 1]? = some b)
    (ho : o ≤ 8) (hcross : m.groupSize ≤ o + 7) (htz : 8 - o ≤ trailingZeros a)
    (hlz : o + 8 - m.groupSize ≤ leadingZeros b) :
    zeroWindowAt (messageStream m message) (m.groupSize * i + o + 7) := by
  have hG := groupSize_ge m
  have hbits := (le_trailingZeros_iff a _ (by omega)).mp htz
  have hbits' := (le_leadingZeros_iff b _ (by omega)).mp hlz
  refine (zeroWindowAt_iff _ _).mpr fun x hx => ?_
  by_cases hgroup : o + x < m.groupSize
  · rw [Nat.add_assoc, messageStream_getElem m message i (o + x) a ha hgroup]
    by_cases hpad : o + x ≤ 7
    · rw [hbits _ (by omega), Bool.and_false]
    · rw [decide_eq_false hpad, Bool.false_and]
  · rw [show m.groupSize * i + o + x = m.groupSize * (i + 1) + (o + x - m.groupSize) by
        rw [Nat.mul_succ]; omega,
      messageStream_getElem m message (i + 1) _ b hb (by omega), hbits' _ (by omega), Bool.and_false]

/-- In the stream of a valid message no window begins with bit 7 or bit 6 of a byte, so none lies inside one group. -/
theorem two_le_of_zeroWindowAt (hvalid : validMessage message) (hi : i < message.length)
    (h : zeroWindowAt (messageStream m message) (m.groupSize * i + o + 7)) : 2 ≤ o := by
  have htz := le_trailingZeros_of_zeroWindowAt (List.getElem?_eq_getElem hi) h
  have hmax := trailingZeros_le_of_valid _ (hvalid _ (List.getElem_mem hi))
  omega

end Windows

/-- A zero window of a valid message's stream ends before the last entry of the last group. -/
theorem lt_of_zeroWindowAt (m : Mode) (message : List Byte) (hvalid : validMessage message) (e : Nat)
    (h : zeroWindowAt (messageStream m message) e) : (e + 1) / m.groupSize < message.length := by
  have hG := groupSize_ge m
  have hG' := groupSize_le m
  have hlen : e < m.groupSize * message.length := messageStream_length m message ▸ h.2.1
  rw [Nat.div_lt_iff_lt_mul (by omega), Nat.mul_comm]
  by_contra hend
  obtain ⟨n, hn⟩ : ∃ n, message.length = n + 1 :=
    Nat.exists_eq_succ_of_ne_zero fun h0 => by rw [h0] at hlen; omega
  rw [hn, Nat.mul_succ] at hlen hend
  rw [show e = m.groupSize * n + (m.groupSize - 8) + 7 by omega] at h
  have hoffset := two_le_of_zeroWindowAt hvalid (by omega) h
  omega

/-! ## The stream that ENCODE leaves on the baseline (R79, R93) -/

/-- The bytes of a message up to a zero byte, which a valid one has only after its end. -/
theorem takeWhile_range_getD (message : List Byte) (hne : ∀ x ∈ message, x ≠ 0#8) (q : Nat) :
    ((List.range q).map (fun g => message.getD g 0#8)).takeWhile (fun byte => byte != 0#8)
      = message.take q := by
  induction message generalizing q with
  | nil => cases q <;> simp [List.range_succ_eq_map]
  | cons x rest ih =>
    obtain ⟨hx, hrest⟩ := List.forall_mem_cons.mp hne
    cases q with
    | zero => rfl
    | succ q =>
      simp only [List.range_succ_eq_map, List.map_cons, List.map_map, List.getD_cons_zero]
      rw [List.takeWhile_cons_of_pos (by simpa using hx), List.take_succ_cons, ← ih hrest q]
      rfl

/-- Group `g` of a message stream with zeros after it is byte `g` of the message, or a zero byte (R86, R92). -/
theorem byteAt_messageStream (m : Mode) (message : List Byte) (r len g : Nat)
    (hg : m.groupSize * g + 7 < len) :
    byteAt ((messageStream m message ++ List.replicate r false).take len) (m.groupSize * g)
      = message.getD g 0#8 := by
  have hG := groupSize_ge m
  refine byte_ext _ _ fun e he => ?_
  rw [byteAt_bit _ _ _ he, List.getD_eq_getElem?_getD, List.getElem?_take_of_lt (by omega)]
  have hT := messageStream_length m message
  by_cases hi : g < message.length
  · have hgroup := group_le_of_lt m.groupSize hi
    rw [List.getElem?_append_left (by omega),
      messageStream_getElem m message g e _ (List.getElem?_eq_getElem hi) (by omega),
      List.getD_eq_getElem _ _ hi, decide_eq_true he, Bool.true_and, Option.getD_some]
  · have hgroup : m.groupSize * message.length ≤ m.groupSize * g :=
      Nat.mul_le_mul_left _ (Nat.not_lt.mp hi)
    rw [List.getElem?_append_right (by omega), List.getElem?_getD_replicate_default_eq,
      List.getD_eq_default _ _ (Nat.not_lt.mp hi), BitVec.getLsbD_zero]

/-- The output from a valid message's stream with zeros after it is the bytes of the whole groups, at most all of the message. -/
theorem outputBytes_messageStream (m : Mode) (message : List Byte) (r len : Nat)
    (hvalid : validMessage message)
    (hlen : len ≤ (messageStream m message ++ List.replicate r false).length) :
    outputBytes m ((messageStream m message ++ List.replicate r false).take len)
      = message.take (len / m.groupSize) := by
  have hG := groupSize_ge m
  have hne : ∀ x ∈ message, x ≠ 0#8 := fun x hx hzero => by
    have := (hvalid x hx).1
    rw [hzero] at this
    exact absurd this (by decide)
  rw [outputBytes, groupBytes, List.length_take, Nat.min_eq_left hlen, ← takeWhile_range_getD message hne]
  congr 1
  refine List.map_congr_left fun g hg => byteAt_messageStream m message r len g ?_
  have hgroup := group_le_of_lt_div (List.mem_range.mp hg)
  omega

/-- A message that fits leaves its message stream inside the flat bit stream (R70). -/
theorem messageStream_fits (n : Nat) (m : Mode) (message : List Byte)
    (hfit : message.length + 1 ≤ capacity n m) : (messageStream m message).length ≤ n * m.k := by
  rw [messageStream_length]
  exact (Nat.le_add_right _ _).trans (group_le_of_lt_div hfit)

section Encoded
variable {s t : State} {code : ModeCode} {m : Mode} {message : List Byte}
  (hwf : Memory.wf s.mem) (hbase : s.normalized) (hm : Mode.ofCode code = some m)
  (hvalid : validMessage message) (hfit : message.length + 1 ≤ capacity s.n m)
  (h : exec (.encode code message) s = .next t)
include hwf hbase hm hvalid hfit h

/-- After ENCODE on the baseline, a slot that is no data slot of the message holds a 0 bit: the pads and the groups after the
message (R62, R77). -/
theorem lsb_slot_after_encode (i j : Nat) (hj : j < m.groupSize)
    (hin : m.groupSize * i + j < s.n * m.k) (hno : message.length ≤ i ∨ 7 < j) :
    lsb (t.cell (slot m i j)) = false := by
  have hG := groupSize_ge m
  refine (encodeOnBaselineStoresTheMessage s t code m message hwf hbase hm hvalid hfit h).2 _ ?_ ?_
  · rw [slot_eq_entryCell]
    exact Nat.div_lt_of_lt_mul (Nat.mul_comm s.n m.k ▸ hin)
  · intro i' j' hi' hj' hslot
    have := distinctSlotsAreDistinctCells m i j i' j' hj (by omega) hslot
    omega

/-- After ENCODE on the baseline the flat bit stream is the message stream and then zeros to the end of the buffer. -/
theorem stream_after_encode :
    ∃ r, t.stream m = messageStream m message ++ List.replicate r false := by
  have hdata := (encodeOnBaselineStoresTheMessage s t code m message hwf hbase hm hvalid hfit h).1
  have hzero := lsb_slot_after_encode hwf hbase hm hvalid hfit h
  have hlen : (t.stream m).length = s.n * m.k := by rw [stream_length, exec_keeps_n _ s t h]
  have hT := messageStream_length m message
  have hpos : 0 < m.groupSize := by have := groupSize_ge m; omega
  have hroom := messageStream_fits s.n m message hfit
  refine ⟨s.n * m.k - (messageStream m message).length, List.ext_getElem? fun p => ?_⟩
  by_cases hp : p < s.n * m.k
  · obtain ⟨i, j, hj, rfl⟩ : ∃ i j, j < m.groupSize ∧ p = m.groupSize * i + j :=
      ⟨p / m.groupSize, p % m.groupSize, Nat.mod_lt p hpos, (Nat.div_add_mod p _).symm⟩
    rw [streamEntriesAreSlots t m i j hj (by rwa [exec_keeps_n _ s t h])]
    by_cases hi : i < message.length
    · have hgroup := group_le_of_lt m.groupSize hi
      rw [List.getElem?_append_left (by omega),
        messageStream_getElem m message i j _ (List.getElem?_eq_getElem hi) hj]
      by_cases hpad : j ≤ 7
      · rw [hdata i j _ (List.getElem?_eq_getElem hi) hpad, decide_eq_true hpad, Bool.true_and]
      · rw [hzero i j hj hp (.inr (by omega)), decide_eq_false hpad, Bool.false_and]
    · have hgroup : m.groupSize * message.length ≤ m.groupSize * i :=
        Nat.mul_le_mul_left _ (Nat.not_lt.mp hi)
      rw [hzero i j hj hp (.inl (Nat.not_lt.mp hi)), List.getElem?_append_right (by omega),
        List.getElem?_replicate_of_lt (by omega)]
  · rw [List.getElem?_eq_none (by omega), List.getElem?_eq_none]
    rw [List.length_append, List.length_replicate]
    omega

/-- DECODE after ENCODE on the baseline answers the bytes of the whole groups read before its scan stops (R93). -/
theorem decode_after_encode :
    ∃ r len, scanStops (messageStream m message ++ List.replicate r false) len ∧
      exec (.decode code) t = .next (t.respond
        { status := .ok, result := some (.message (message.take (len / m.groupSize))) }) := by
  obtain ⟨r, hstream⟩ := stream_after_encode hwf hbase hm hvalid hfit h
  obtain ⟨len, hstop, -⟩ := exists_scanStops t m
  have hexec := exec_decode_of_scanStops hm hstop
  rw [hstream] at hstop hexec
  rw [outputBytes_messageStream m message r len hvalid hstop.1] at hexec
  exact ⟨r, len, hstop, hexec⟩

end Encoded

/-- A scan of a message stream with zeros after it reads the whole message unless a window in the message stops it. -/
theorem length_le_of_scanStops (m : Mode) (message : List Byte) (r len : Nat)
    (hstop : scanStops (messageStream m message ++ List.replicate r false) len)
    (hnone : ¬ prematureSentinel m message) : message.length ≤ len / m.groupSize := by
  obtain ⟨-, -, hend⟩ := hstop
  have hpos : 0 < m.groupSize := by have := groupSize_ge m; omega
  rw [Nat.le_div_iff_mul_le hpos, Nat.mul_comm, ← messageStream_length]
  by_contra hlt
  rw [List.length_append] at hend
  obtain ⟨hlen, hwindow⟩ := hend.resolve_left (by omega)
  exact hnone ⟨len - 1, by omega, (zeroWindowAt_append _ _ _ (by omega)).mp hwindow⟩

/-- The first zero window of a message stream stops the scan, whatever follows the message (R84). -/
theorem scanStops_of_first_window (bits rest : List Bool) (e : Nat) (h : zeroWindowAt bits e)
    (hfirst : ∀ e', e' < e → ¬ zeroWindowAt bits e') : scanStops (bits ++ rest) (e + 1) := by
  have hlen := h.2.1
  refine ⟨by rw [List.length_append]; omega, fun e' he' hwindow => ?_,
    .inr ⟨Nat.succ_pos e, (zeroWindowAt_append bits rest e hlen).mpr h⟩⟩
  exact hfirst e' he' ((zeroWindowAt_append bits rest e' (by omega)).mp hwindow)

/-! ## The obligations -/

/-- Settles O54: the output is the message up to the group in which the scan stops. That is past the message where no window is in
it, and at its first window otherwise, which lies before the end of the last group. -/
theorem roundTripUnlessPrematureSentinel : Obligations.RoundTripUnlessPrematureSentinel := by
  intro s t u code m message hwf hm hvalid hfit hnormalize hencode
  have hbase : t.normalized := normalizeLeavesTheBaseline s t hwf hnormalize
  obtain ⟨-, hwf', -, -⟩ := execNormalize_cases s t hwf hnormalize
  rw [← exec_keeps_n _ s t hnormalize] at hfit
  obtain ⟨mem, count, hok⟩ := (encodeCapacityBoundary t code m message hm hvalid).1 hfit
  obtain ⟨r, len, hstop, hdecode⟩ := decode_after_encode hwf' hbase hm hvalid hfit hencode
  have cut : ∀ e, zeroWindowAt (messageStream m message) e →
      (∀ e', e' < e → ¬ zeroWindowAt (messageStream m message) e') →
      (e + 1) / m.groupSize < message.length ∧
        message.take (len / m.groupSize) = message.take ((e + 1) / m.groupSize) := by
    intro e hwindow hfirst
    rw [scanStops_unique hstop (scanStops_of_first_window _ _ e hwindow hfirst)]
    exact ⟨lt_of_zeroWindowAt m message hvalid e hwindow, rfl⟩
  refine ⟨⟨count, ?_⟩, _, hdecode, ⟨?_, fun hnone => ?_⟩, cut⟩
  · rw [hok, Host.Outcome.next.injEq] at hencode
    rw [← hencode]
    rfl
  · rintro hall ⟨e, -, hwindow⟩
    have hex : ∃ e, zeroWindowAt (messageStream m message) e := ⟨e, hwindow⟩
    obtain ⟨hlt, hcut⟩ := cut _ (Nat.find_spec hex) fun e' he' => Nat.find_min hex he'
    have hlength := congrArg List.length (hall.symm.trans hcut)
    rw [List.length_take] at hlength
    omega
  · exact List.take_of_length_le (length_le_of_scanStops m message r len hstop hnone)

/-- Settles O53: a window begins after bit 6 of a byte, so it crosses into the next byte, and its length is the zeros it covers in
both bytes and the pad; enough zeros make the window that begins with the first byte's trailing zeros. -/
theorem prematureSentinelByZeroCounts : Obligations.PrematureSentinelByZeroCounts := by
  refine ⟨fun m message hvalid => ?_, by decide, by decide, fun m => by cases m <;> decide⟩
  have hG := groupSize_eq_pad m
  have hG' := groupSize_le m
  constructor
  · rintro ⟨e, -, hwindow⟩
    obtain ⟨w, rfl⟩ : ∃ w, e = w + 7 := ⟨e - 7, by have := hwindow.1; omega⟩
    have hlen := hwindow.2.1
    rw [messageStream_length] at hlen
    obtain ⟨i, o, ho, rfl⟩ : ∃ i o, o < m.groupSize ∧ w = m.groupSize * i + o :=
      ⟨w / m.groupSize, w % m.groupSize, Nat.mod_lt w (by omega), (Nat.div_add_mod w _).symm⟩
    have hi : i < message.length := Nat.lt_of_mul_lt_mul_left (a := m.groupSize) (by omega)
    have ho' := two_le_of_zeroWindowAt hvalid hi hwindow
    have hi' : i + 1 < message.length :=
      Nat.lt_of_mul_lt_mul_left (a := m.groupSize) (by rw [Nat.mul_succ]; omega)
    have ha := List.getElem?_eq_getElem hi
    have hb := List.getElem?_eq_getElem hi'
    have htz := le_trailingZeros_of_zeroWindowAt ha hwindow
    have hlz := le_leadingZeros_of_zeroWindowAt hb ho hwindow
    exact ⟨i, _, _, ha, hb, by omega⟩
  · rintro ⟨i, a, b, ha, hb, hzeros⟩
    have hmax := trailingZeros_le_of_valid a (hvalid a (List.mem_of_getElem? ha))
    have hwindow := zeroWindowAt_of_zeros (m := m) (o := 8 - trailingZeros a) ha hb (by omega) (by omega)
      (by omega) (by omega)
    exact ⟨_, hwindow.2.1, hwindow⟩

/-- Settles O49: DECODE answers the output from the entries scanned. -/
theorem decodeRegroupsTheStream : Obligations.DecodeRegroupsTheStream := fun s _ m len hm hstop =>
  ⟨_, exec_decode_of_scanStops hm hstop, outputBytes_take m (s.stream m) len hstop.1⟩

/-- Settles O50: an output short of the whole groups lacks one group, and not in RGB mode. -/
theorem zeroByteEndsOnlyTheLastGroup : Obligations.ZeroByteEndsOnlyTheLastGroup := by
  intro s code m len out hm hstop h
  obtain rfl := decode_output_eq hm hstop h
  have hle := (outputBytes_take m (s.stream m) len hstop.1).1
  have hshort := short_output m (s.stream m) len hstop
  generalize (outputBytes m ((s.stream m).take len)).length = n at hle hshort ⊢
  refine ⟨?_, ?_, fun hlt => (hshort hlt).2⟩
  · rintro rfl
    have hG : Mode.rgb.groupSize = 9 := rfl
    rw [hG] at hle hshort
    exact hle.eq_of_not_lt fun hlt => absurd (hshort hlt).1 (by decide)
  · by_contra hlt
    obtain ⟨hG, hlen, -⟩ := hshort (by omega)
    rw [hG] at hlt
    omega

/-- Settles O51: the scan reads no more than the stream, and after an ENCODE the output is the start of the message. -/
theorem decodedLengthIsBounded : Obligations.DecodedLengthIsBounded := by
  constructor
  · intro s code m len out hm hstop h
    obtain rfl := decode_output_eq hm hstop h
    have hle := hstop.1
    rw [stream_length] at hle
    exact ⟨(outputBytes_take m (s.stream m) len hstop.1).1, Nat.div_le_div_right hle⟩
  · intro s t code m message out count hwf hbase hm hencode hreturned hdecode
    rcases execEncode_cases code message s t hencode with ⟨e, rfl⟩ | ⟨m', hm', hgood, hfit, -, -⟩
    · rw [respond_returned] at hreturned
      cases List.singleton_inj.mp (List.append_cancel_left hreturned)
    · obtain rfl : m = m' := Option.some.inj (hm.symm.trans hm')
      obtain ⟨r, len, -, hexec⟩ := decode_after_encode hwf hbase hm
        ((badMessage_eq_false message).mp hgood) ((overCapacity_eq_false s.n m message).mp hfit) hencode
      rw [hexec, Host.Outcome.next.injEq, respond_inj] at hdecode
      cases hdecode
      exact List.length_take_le' _ _

/-- Settles O48: the scan's sentinel tests are the zero windows of the stream. -/
theorem scanStopsAtTheFirstSentinel : Obligations.ScanStopsAtTheFirstSentinel := exists_scanStops

/-- Settles O47: a code other than `000` names a mode, and an output holds no zero byte. -/
theorem decodeReturnsNonZeroBytes : Obligations.DecodeReturnsNonZeroBytes := by
  intro s code hcode
  obtain ⟨m, hm⟩ := Option.ne_none_iff_exists'.mp (mt (ofCode_eq_none code).mp hcode)
  obtain ⟨bits, -, hexec⟩ := execDecode_eq code m s hm
  exact ⟨_, hexec, outputBytes_range m bits⟩

/-- Settles O46, by the code that names no mode. -/
theorem decodeWithCodeZeroRaises : Obligations.DecodeWithCodeZeroRaises := by
  intro s
  rw [exec, execDecode, ofCode_zero, raise_eq]

end Sys2Proof.Machine
end

section
/-! SUPPORT. The family of spec/60_exceptions.md: an instruction answers an error for a cause of the taxonomy and with nothing changed
but the response, or it answers status OK. -/
namespace Sys2Proof.Machine

/-! ## The causes of the taxonomy -/

/-- The instruction is one that raises the error, and in a buffer of `n` pixels it has a cause to (R96). -/
def errorCause (n : Nat) (i : Instr) : Error → Prop
  | .invalidChannelFlags =>
    (∃ token, i = .selectMode token ∧
      ¬ ∃ letters : List Channel, letters ≠ [] ∧ letters.Nodup ∧ spells token letters) ∨
    (∃ message, i = .encode 0b000#3 message) ∨ i = .decode 0b000#3
  | .encodingCapacityExceeded =>
    ∃ code m message, i = .encode code message ∧ Mode.ofCode code = some m ∧
      capacity n m < message.length + 1
  | .undefinedByteEncoding =>
    ∃ code message, i = .encode code message ∧ ∃ x ∈ message, x.toNat = 0 ∨ 0x7F < x.toNat
  | .illegalCommand => False

/-- The error ENCODE raises is that of a condition that holds, under either `ERR_ORDER` (R72). -/
theorem encodeError_eq_some {order : ErrOrder} {bad tooLong : Bool} {e : Error}
    (h : encodeError order bad tooLong = some e) :
    (e = .undefinedByteEncoding ∧ bad = true) ∨ (e = .encodingCapacityExceeded ∧ tooLong = true) := by
  cases order with
  | byteFirst =>
    simp only [encodeError] at h
    split at h
    · exact .inl ⟨(Option.some.inj h).symm, ‹_›⟩
    · exact .inr ((Option.ite_none_right_eq_some.mp h).symm.imp_left fun he => (Option.some.inj he).symm)
  | capacityFirst =>
    simp only [encodeError] at h
    split at h
    · exact .inr ⟨(Option.some.inj h).symm, ‹_›⟩
    · exact .inl ((Option.ite_none_right_eq_some.mp h).symm.imp_left fun he => (Option.some.inj he).symm)

/-- With a mode, ENCODE has a cause for the error of its conditions (R100, R101). -/
theorem errorCause_of_encodeError {order : ErrOrder} {n : Nat} {code : ModeCode} {m : Mode}
    {message : List Byte} {e : Error} (hm : Mode.ofCode code = some m)
    (he : encodeError order (badMessage message) (overCapacity n m message) = some e) :
    errorCause n (.encode code message) e := by
  rcases encodeError_eq_some he with ⟨rfl, hbad⟩ | ⟨rfl, hlong⟩
  · exact ⟨code, message, rfl, (badMessage_eq_true message).mp hbad⟩
  · exact ⟨code, m, message, rfl, hm, (overCapacity_eq_true n m message).mp hlong⟩

/-! ## What an instruction answers -/

/-- An instruction raises an error it has a cause for and changes nothing but the response, or it answers status OK
(R96, R98). -/
theorem exec_raises_or_ok (i : Instr) (s t : State) (h : exec i s = .next t) :
    (∃ e, errorCause s.n i e ∧ t = s.respond { status := .error e, result := none }) ∨
    ∃ result, t.returned = s.returned ++ [{ status := .ok, result := result }] := by
  have answers {t' : State} (h' : exec i s = .next t') : t = t' :=
    Host.Outcome.next.inj (h.symm.trans h')
  cases i with
  | selectMode token =>
    by_cases hspells : ∃ letters : List Channel, letters ≠ [] ∧ letters.Nodup ∧ spells token letters
    · obtain ⟨letters, hne, hnodup, hs⟩ := hspells
      exact .inr ⟨_, congrArg State.returned
        (answers (exec_selectMode_of_spells s token letters hne hnodup hs))⟩
    · exact .inl ⟨.invalidChannelFlags, .inl ⟨token, rfl, hspells⟩,
        answers (exec_selectMode_of_not_spells s token hspells)⟩
  | normalize =>
    obtain ⟨mem, hwalk⟩ := normalize_walk s
    simp only [exec, execNormalize, hwalk, complete_eq, Host.Outcome.next.injEq] at h
    exact .inr ⟨none, congrArg State.returned h.symm⟩
  | encode code message =>
    cases hm : Mode.ofCode code with
    | none =>
      obtain rfl := (ofCode_eq_none code).mp hm
      exact .inl ⟨.invalidChannelFlags, .inr (.inl ⟨message, rfl⟩),
        answers (encodeWithCodeZeroRaises s message)⟩
    | some m =>
      cases he : encodeError s.cfg.errOrder (badMessage message) (overCapacity s.n m message) with
      | some e =>
        exact .inl ⟨e, errorCause_of_encodeError hm he,
          answers (exec_encode_of_error s code m message e hm he)⟩
      | none =>
        have hreturned := congrArg State.returned (encode_frame h)
        rw [encodePlan_of_no_error hm he] at hreturned
        exact .inr ⟨_, hreturned⟩
  | decode code =>
    cases hm : Mode.ofCode code with
    | none =>
      obtain rfl := (ofCode_eq_none code).mp hm
      exact .inl ⟨.invalidChannelFlags, .inr (.inr rfl), answers (decodeWithCodeZeroRaises s)⟩
    | some m =>
      obtain ⟨bits, -, hexec⟩ := execDecode_eq code m s hm
      exact .inr ⟨_, congrArg State.returned (answers hexec)⟩

/-- An instruction that answers a status other than OK had a cause for it and changed nothing but the response. -/
theorem exec_of_status_ne_ok (i : Instr) (s t : State) (r : Response) (h : exec i s = .next t)
    (hreturned : t.returned = s.returned ++ [r]) (hstatus : r.status ≠ .ok) :
    ∃ e, r = { status := .error e, result := none } ∧ errorCause s.n i e ∧ t = s.respond r := by
  rcases exec_raises_or_ok i s t h with ⟨e, hcause, rfl⟩ | ⟨result, hok⟩
  · obtain rfl := List.singleton_inj.mp (List.append_cancel_left hreturned)
    exact ⟨e, rfl, hcause, rfl⟩
  · obtain rfl := List.singleton_inj.mp (List.append_cancel_left (hok.symm.trans hreturned))
    exact absurd rfl hstatus

/-! ## The obligations -/

/-- Settles O24: the error returned is one the instruction had a cause for, and none has a cause for IllegalCommand. -/
theorem errorsHaveTheirCauses : Obligations.ErrorsHaveTheirCauses := by
  intro i s t e h hreturned
  obtain ⟨e', he, hcause, -⟩ := exec_of_status_ne_ok i s t _ h hreturned nofun
  cases he
  cases e with
  | invalidChannelFlags => exact .inl ⟨rfl, hcause⟩
  | encodingCapacityExceeded => exact .inr (.inl ⟨rfl, hcause⟩)
  | undefinedByteEncoding => exact .inr (.inr ⟨rfl, hcause⟩)
  | illegalCommand => exact hcause.elim

/-- Settles O25: a legal word's instruction that fails changes nothing but the response, and an illegal word does nothing but
answer IllegalCommand. -/
theorem failedCommandChangesNothing : Obligations.FailedCommandChangesNothing := by
  intro s t c rest r hhost hstep hreturned hstatus
  cases hd : decodeCommand c with
  | ok i =>
    rw [step_of_legal_command s c rest i hhost hd] at hstep
    obtain ⟨e, -, -, ht⟩ := exec_of_status_ne_ok i { s with host := rest } t r hstep hreturned hstatus
    exact ht
  | error e =>
    rw [step_of_illegal_command s c rest e hhost hd, illegalCommand, raise_eq,
      Host.Outcome.next.injEq] at hstep
    subst hstep
    obtain rfl := List.singleton_inj.mp (List.append_cancel_left hreturned)
    rfl

end Sys2Proof.Machine
end
